-- ==== Sys2Proof/Word.lean ====
section
/-! DEFINITION. The one data type of the ISA (00_scope.md R7, R12): a signed two's-complement value of XLEN = 32 bits,
and `wrap`, which reduces an exact integer to it. There are no unsigned values and no narrower types (R12). -/

namespace Sys2Proof

/-- A register, a cell, the pc or an operand (R7, decision D1: XLEN = 32). Its signed value is `toInt`. -/
abbrev Word := BitVec 32

/-- The unit in which `Host.Cell` holds memory; no rule of the spec has a byte (R12; log entry 1). -/
abbrev Byte := BitVec 8

/-- `MIN` of R7. -/
abbrev minValue : Int := -2147483648

/-- `MAX` of R7. -/
abbrev maxValue : Int := 2147483647

/-- `wrap(v)` of R12: the one word congruent to the exact integer `v` modulo 2^32. -/
def wrap (v : Int) : Word := BitVec.ofInt 32 v

end Sys2Proof
end

