-- ==== Sys2Proof/Config.lean ====
section
/-! DEFINITION. The implementation parameters of 00_scope.md section 4 and the values the spec gives them: XLEN (R7), CAPACITY's default
and range (R8), and the two admitted operand policies (R10; which one the machine has is `Machine.operandPolicy`).
The spec leaves nothing open (93_implementation_defined.md), so there is no free value here. -/

namespace Sys2Proof.Config

/-- `XLEN` of R7: 32, the width of `Word` (decision D1). -/
def xlen : Nat := 32

/-- The default `CAPACITY` of R8: "default 1024". -/
abbrev defaultCapacity : Nat := 1024

/-- The largest admitted `CAPACITY` of R8: 2^(XLEN-1) - 4 (decision D5). -/
abbrev maxCapacity : Nat := 2147483644

/-- `OOR_OPERAND_POLICY` of R10: what an operand fetch outside memory does. -/
inductive OorOperandPolicy where
  /-- The cell reads as 0: the spec's choice (D4). -/
  | zero
  /-- The instruction is abandoned and the machine halts: the other admitted value. -/
  | halt
  deriving DecidableEq, Repr

end Sys2Proof.Config
end

