-- ==== Sys2Proof/Syntax.lean ====
section
/-! DEFINITION. The twelve instructions (R2, R74), one constructor for each row of spec/opcode_table.json, with the operand cells of its
format (R72) in their order. A register-code operand is kept as the raw cell: every word is a valid register code (R73), and the
meaning resolves it (R22). -/

namespace Sys2Proof

/-- An instruction with its operand cells (R14: `r`, `r1`, `r2` register codes, `imm` immediate, `addr` address). -/
inductive Instr where
  /-- `LOAD r, imm` (R120). -/
  | load (r imm : Word)
  /-- `STORE r, addr` (R121). -/
  | store (r addr : Word)
  /-- `ADD r1, r2` (R131). -/
  | add (r1 r2 : Word)
  /-- `SUB r1, r2` (R132). -/
  | sub (r1 r2 : Word)
  /-- `MUL r1, r2` (R133). -/
  | mul (r1 r2 : Word)
  /-- `DIV r1, r2` (R134). -/
  | div (r1 r2 : Word)
  /-- `JMP addr` (R150). -/
  | jmp (addr : Word)
  /-- `JEQ r1, r2, addr` (R151). -/
  | jeq (r1 r2 addr : Word)
  /-- `JNE r1, r2, addr` (R152). -/
  | jne (r1 r2 addr : Word)
  /-- `CMP r1, r2` (R137). -/
  | cmp (r1 r2 : Word)
  /-- `PRINT r` (R160). -/
  | print (r : Word)
  /-- `HALT` (R161). -/
  | halt
  deriving DecidableEq, Repr

end Sys2Proof
end

