-- ==== Sys2Proof/WellFormed.lean ====
section
/-! DEFINITION. What the interface and the encoding admit: every instruction (R80), a capacity in the range of R8, a program whose every
element fits a cell (R100), and a run of cells that is exactly one instruction (R71, R74). -/

namespace Sys2Proof

/-- R80: "No operand value makes an instruction illegal". Register codes outside 0..4 resolve to AX (R22) and out-of-range
addresses are dealt with by each instruction, so every term of `Instr` is well-formed. -/
def Instr.wellFormed : Instr → Bool
  | .load _ _ => true
  | .store _ _ => true
  | .add _ _ => true
  | .sub _ _ => true
  | .mul _ _ => true
  | .div _ _ => true
  | .jmp _ => true
  | .jeq _ _ _ => true
  | .jne _ _ _ => true
  | .cmp _ _ => true
  | .print _ => true
  | .halt => true

/-- R8, D5: the admitted capacities. -/
def capacityAdmitted (capacity : Int) : Bool :=
  decide (0 ≤ capacity) && decide (capacity ≤ (Config.maxCapacity : Int))

/-- R12: whether an exact integer is a value of the ISA. -/
def fitsCell (v : Int) : Bool :=
  decide (minValue ≤ v) && decide (v ≤ maxValue)

/-- R100, D11: LOAD_PROGRAM admits a sequence only if every element fits a cell. -/
def programAdmitted (program : List Int) : Bool :=
  program.all fitsCell

/-- R74, R76: a run of cells is one whole instruction when its first cell is an opcode and its length is that opcode's width. -/
def isInstructionRun : List Word → Bool
  | [] => false
  | op :: operands =>
    if op = 1 ∨ op = 2 ∨ op = 3 ∨ op = 4 ∨ op = 5 ∨ op = 6 ∨ op = 10 then operands.length == 2
    else if op = 7 ∨ op = 11 then operands.length == 1
    else if op = 8 ∨ op = 9 then operands.length == 3
    else if op = 12 then operands.length == 0
    else false

end Sys2Proof
end

