-- ==== Sys2Proof/Decode.lean ====
section
/-! DEFINITION. The encoding (30_encoding.md): the opcode map as the single source of codes, operand counts and widths (R74, R75), the decoder
over cells, total and rejecting by name (R77, R78), and the encoder from the same map. -/

namespace Sys2Proof

/-- The formats of R72, under the spec's names. -/
inductive Format where
  | n | r | a | ri | ra | rr | rra
  deriving DecidableEq, Repr

/-- The operand cells of a format (R72). -/
def Format.operandCount : Format → Nat
  | .n => 0
  | .r => 1
  | .a => 1
  | .ri => 2
  | .ra => 2
  | .rr => 2
  | .rra => 3

/-- The twelve recognised outcomes of decoding an opcode cell (R77). -/
inductive Opcode where
  | load | store | add | sub | mul | div | jmp | jeq | jne | cmp | print | halt
  deriving DecidableEq, Repr

/-- The opcode column of R74. -/
def Opcode.code : Opcode → Word
  | .load => 1
  | .store => 2
  | .add => 3
  | .sub => 4
  | .mul => 5
  | .div => 6
  | .jmp => 7
  | .jeq => 8
  | .jne => 9
  | .cmp => 10
  | .print => 11
  | .halt => 12

/-- The format column of R74. -/
def Opcode.format : Opcode → Format
  | .load => .ri
  | .store => .ra
  | .add => .rr
  | .sub => .rr
  | .mul => .rr
  | .div => .rr
  | .jmp => .a
  | .jeq => .rra
  | .jne => .rra
  | .cmp => .rr
  | .print => .r
  | .halt => .n

/-- How many operand cells follow the opcode cell. -/
def Opcode.operandCount (op : Opcode) : Nat := op.format.operandCount

/-- The width column of R74, opcode cell included: both the decoder and the pc's advance use it (R75). -/
def Opcode.width (op : Opcode) : Nat := op.operandCount + 1

/-- The rows of R74, in the table's order. -/
def opcodes : List Opcode :=
  [.load, .store, .add, .sub, .mul, .div, .jmp, .jeq, .jne, .cmp, .print, .halt]

/-- R77: the whole opcode cell selects the instruction; `none` is the spec's `Unknown` (R78). -/
def decodeOpcode (cell : Word) : Option Opcode :=
  opcodes.find? (fun op => op.code == cell)

/-- The opcode of an instruction. -/
def Instr.opcode : Instr → Opcode
  | .load _ _ => .load
  | .store _ _ => .store
  | .add _ _ => .add
  | .sub _ _ => .sub
  | .mul _ _ => .mul
  | .div _ _ => .div
  | .jmp _ => .jmp
  | .jeq _ _ _ => .jeq
  | .jne _ _ _ => .jne
  | .cmp _ _ => .cmp
  | .print _ => .print
  | .halt => .halt

/-- Operand cell +1, +2 or +3 of an instruction, at index 0, 1 or 2 of the cells after the opcode (R72). A list of at
least `operandCount` cells is the only use. -/
def operandCell (operands : List Word) (k : Nat) : Word := operands.getD k 0

/-- R72: an opcode and its operand cells, as an instruction. -/
def assemble (op : Opcode) (operands : List Word) : Instr :=
  match op with
  | .load => .load (operandCell operands 0) (operandCell operands 1)
  | .store => .store (operandCell operands 0) (operandCell operands 1)
  | .add => .add (operandCell operands 0) (operandCell operands 1)
  | .sub => .sub (operandCell operands 0) (operandCell operands 1)
  | .mul => .mul (operandCell operands 0) (operandCell operands 1)
  | .div => .div (operandCell operands 0) (operandCell operands 1)
  | .jmp => .jmp (operandCell operands 0)
  | .jeq => .jeq (operandCell operands 0) (operandCell operands 1) (operandCell operands 2)
  | .jne => .jne (operandCell operands 0) (operandCell operands 1) (operandCell operands 2)
  | .cmp => .cmp (operandCell operands 0) (operandCell operands 1)
  | .print => .print (operandCell operands 0)
  | .halt => .halt

/-- Why a run of cells is not an instruction. -/
inductive DecodeError where
  /-- There is no opcode cell. -/
  | noCell
  /-- The opcode cell is none of 1..12 (R78). -/
  | unknownOpcode (cell : Word)
  /-- Fewer cells follow than the opcode calls for. -/
  | missingOperands (op : Opcode)
  deriving DecidableEq, Repr

/-- The decoder over a run of cells: the instruction it begins with and the cells after it, or the reason there is none. The
length is decided by the opcode cell alone (R76). -/
def decode : List Word → Except DecodeError (Instr × List Word)
  | [] => .error .noCell
  | cell :: rest =>
    match decodeOpcode cell with
    | none => .error (.unknownOpcode cell)
    | some op =>
      if rest.length < op.operandCount then .error (.missingOperands op)
      else .ok (assemble op (rest.take op.operandCount), rest.drop op.operandCount)

/-- The operand cells of an instruction, in the order of R72. -/
def Instr.operands : Instr → List Word
  | .load r imm => [r, imm]
  | .store r addr => [r, addr]
  | .add r1 r2 => [r1, r2]
  | .sub r1 r2 => [r1, r2]
  | .mul r1 r2 => [r1, r2]
  | .div r1 r2 => [r1, r2]
  | .jmp addr => [addr]
  | .jeq r1 r2 addr => [r1, r2, addr]
  | .jne r1 r2 addr => [r1, r2, addr]
  | .cmp r1 r2 => [r1, r2]
  | .print r => [r]
  | .halt => []

/-- The cells of an instruction (R71): its opcode cell, then its operand cells. -/
def encode (i : Instr) : List Word := i.opcode.code :: i.operands

/-- The cells of a program (R70): its instructions' cells, one after another. -/
def encodeProgram (program : List Instr) : List Word := program.flatMap encode

/-- The four cells of the longest instruction, read from the table's number `w`: cell k is bits 32k+31..32k, and every bit from
`nbits` up is 0. -/
def tableCells (nbits w : Nat) : List Word :=
  (List.range 4).map (fun k => BitVec.ofNat 32 ((w % 2 ^ nbits) >>> (32 * k)))

/-- The instruction the decoder reads from the bits `w`, numbered as spec/opcode_table.json numbers them. -/
def decodeTableWord (nbits w : Nat) : Option Instr :=
  match decode (tableCells nbits w) with
  | .ok (i, _) => some i
  | .error _ => none

end Sys2Proof
end

