-- ==== Sys2Proof/Machine/State.lean ====
section
/-! DEFINITION. The whole state of the CORE (10_state.md; the event channel of 40_cycle_and_host.md R106), what stops a step, and the state
that construction leaves (R34, R190). -/

namespace Sys2Proof.Machine

/-- The five canonical register identifiers (R20). -/
inductive Reg where
  | ax | bx | cx | dx | sp
  deriving DecidableEq, Repr

/-- The two events of the output channel (R106). -/
inductive Event where
  /-- Emitted by PRINT with the value of its register (R160). -/
  | print (v : Word)
  /-- Emitted by DIV with a zero divisor (R136). -/
  | divByZero
  deriving DecidableEq, Repr

/-- Memory as bytes by byte address: addresses strictly rising, and no byte equal to what an unlisted address reads as
(`Memory.wf` in Ops.lean). Cell `a` is the bytes 4a .. 4a+3 (log entry 1). -/
abbrev Memory := List Host.Cell

/-- What an unlisted byte reads as: memory is "zero-initialized" (R31, R34). -/
def Memory.unlisted : Byte := 0

/-- The machine's state (R20 to R31, R106). -/
structure State where
  /-- Register code 0 (R20). -/
  ax : Word
  /-- Register code 1 (R20). -/
  bx : Word
  /-- Register code 2 (R20). -/
  cx : Word
  /-- Register code 3 (R20). -/
  dx : Word
  /-- Register code 4, an ordinary register (R20, R21). -/
  sp : Word
  /-- The address of the next instruction's opcode cell; any word (R25). -/
  pc : Word
  /-- The flag Z (R27). -/
  z : Bool
  /-- The flag C (R27). -/
  c : Bool
  /-- The run state (R29). -/
  running : Bool
  /-- `CAPACITY`: how many cells memory has, fixed by construction (R8, R31; log entry 2). -/
  capacity : Nat
  /-- The memory array (R31). -/
  mem : Memory
  /-- The output event channel, oldest event first (R106; log entry 7). -/
  events : List Event
  deriving DecidableEq, Repr

/-- Why a step would stop the machine with a fault: never. Every abnormal condition is a halt, which is a next state
(R170, R174), so the type has no constructor, which is the strongest thing to say (log entry 8). -/
inductive Fault where
  deriving DecidableEq, Repr

/-- Why a step would be refused. -/
inductive Refusal where
  /-- Raised by an arm of `exec` whose instruction has no meaning yet: by none of them. It is safe: nothing is claimed of a
  refused step. -/
  | notModelled (mnemonic : String)
  deriving DecidableEq, Repr

/-- What construction with a capacity leaves (the table of R34; R190): every register but SP 0, SP = CAPACITY - 1, pc 0, both
flags and the run state false, every cell 0, the event channel empty. -/
def State.constructed (capacity : Nat) : State where
  ax := 0
  bx := 0
  cx := 0
  dx := 0
  sp := wrap ((capacity : Int) - 1)
  pc := 0
  z := false
  c := false
  running := false
  capacity := capacity
  mem := []
  events := []

/-- The machine right after reset. Reset is construction (R190), here with the default capacity (R8; log entry 2). -/
def State.reset : State := State.constructed Config.defaultCapacity

end Sys2Proof.Machine
end

