-- ==== Sys2Proof/Machine/Ops.lean ====
section
/-! DEFINITION. The named operations over memory, registers, pc, run state and event channel. All reads and writes of the meanings go
through these. `State.halt` is the one thing that stands in for taking an exception (60_exceptions.md R174); its only
counterpart is LOAD_PROGRAM in HostOps.lean, since no instruction returns (R175). -/

namespace Sys2Proof.Machine

/-- The canonical form of memory: byte addresses strictly rising, and no entry equal to what an unlisted address reads as. -/
abbrev Memory.wf (m : Memory) : Prop :=
  m.Pairwise (fun x y => x.1 < y.1) ∧ ∀ x ∈ m, x.2 ≠ Memory.unlisted

/-- Every listed byte belongs to one of the first `capacity` cells (R31: addresses are 0 .. capacity-1). -/
abbrev Memory.within (m : Memory) (capacity : Nat) : Prop :=
  ∀ x ∈ m, x.1 < 4 * capacity

/-- One byte of memory. -/
def Memory.read : Memory → Nat → Byte
  | [], _ => Memory.unlisted
  | (b, v) :: rest, a => if b = a then v else Memory.read rest a

/-- Drops what is listed at an address. -/
def Memory.eraseByte (m : Memory) (a : Nat) : Memory :=
  m.filter (fun x => x.1 != a)

/-- Lists a byte, before the first larger address. -/
def Memory.insertByte : Memory → Nat → Byte → Memory
  | [], a, v => [(a, v)]
  | (b, w) :: rest, a, v =>
    if a < b then (a, v) :: (b, w) :: rest else (b, w) :: Memory.insertByte rest a v

/-- Writes one byte, keeping the canonical form: the value of an unlisted address is not listed. -/
def Memory.write (m : Memory) (a : Nat) (v : Byte) : Memory :=
  if v = Memory.unlisted then m.eraseByte a else (m.eraseByte a).insertByte a v

/-- The byte address of byte k of cell a (log entry 1: cell a is bytes 4a .. 4a+3). -/
def cellByte (a k : Nat) : Nat := 4 * a + k

/-- The whole cell at cell address `a`, its byte 0 the least significant (log entry 1; R56: no rule observes the order). -/
def Memory.readCell (m : Memory) (a : Nat) : Word :=
  m.read (cellByte a 3) ++ m.read (cellByte a 2) ++ m.read (cellByte a 1) ++ m.read (cellByte a 0)

/-- Writes the whole cell at cell address `a` (R58: every access moves one cell). -/
def Memory.writeCell (m : Memory) (a : Nat) (v : Word) : Memory :=
  (((m.write (cellByte a 0) (v.extractLsb' 0 8)).write (cellByte a 1) (v.extractLsb' 8 8)).write
    (cellByte a 2) (v.extractLsb' 16 8)).write (cellByte a 3) (v.extractLsb' 24 8)

/-- Writes a run of cells from cell address `a` up (R100's copy). -/
def Memory.writeCells (m : Memory) (a : Nat) : List Word → Memory
  | [] => m
  | v :: rest => Memory.writeCells (m.writeCell a v) (a + 1) rest

/-- `in_range(a)` of R13 and R50: `0 <= a < CAPACITY`, `a` signed. -/
def State.inRange (s : State) (a : Word) : Bool :=
  decide (0 ≤ a.toInt) && decide (a.toInt < (s.capacity : Int))

/-- The cell number of an address; used only for an in-range one. -/
def cellIndex (a : Word) : Nat := a.toNat

/-- `MemRead(a, 1)` of R52, for an in-range address. -/
def State.memRead (s : State) (a : Word) : Word := s.mem.readCell (cellIndex a)

/-- `MemWrite(a, 1, v)` of R53: no effect at all out of range. -/
def State.memWrite (s : State) (a v : Word) : State :=
  if s.inRange a then { s with mem := s.mem.writeCell (cellIndex a) v } else s

/-- `x[i]` of R13. -/
def State.readReg (s : State) : Reg → Word
  | .ax => s.ax
  | .bx => s.bx
  | .cx => s.cx
  | .dx => s.dx
  | .sp => s.sp

/-- `x[i] <- v` of R13. No register is hardwired (R20). -/
def State.writeReg (s : State) (r : Reg) (v : Word) : State :=
  match r with
  | .ax => { s with ax := v }
  | .bx => { s with bx := v }
  | .cx => { s with cx := v }
  | .dx => { s with dx := v }
  | .sp => { s with sp := v }

/-- `pc <- target` of R13; never range-checked when written (R91). -/
def State.setPc (s : State) (target : Word) : State := { s with pc := target }

/-- The width advance of R75, by the width column of the opcode map. -/
def State.advance (s : State) (op : Opcode) : State :=
  s.setPc (s.pc + BitVec.ofNat 32 op.width)

/-- `running <- false` of R13: a halt saves nothing and transfers control nowhere (R174). -/
def State.halt (s : State) : State := { s with running := false }

/-- `emit(e)` of R13 and R106: appends an event to the output channel. -/
def State.emit (s : State) (e : Event) : State := { s with events := s.events ++ [e] }

end Sys2Proof.Machine
end

