-- ==== Sys2Proof/Machine/Flags.lean ====
section
/-! DEFINITION. The flag computation: `update_flags` (10_state.md R27) with the carry thresholds kept verbatim (00_scope.md R11). -/

namespace Sys2Proof.Machine

/-- `CARRY_HI` of R11. -/
abbrev carryHi : Int := 65535

/-- `CARRY_LO` of R11. -/
abbrev carryLo : Int := -32768

/-- Z of R27: the result is 0. -/
def zeroFlag (r : Word) : Bool := r == 0

/-- C of R27: the result, as written and so after wrap-around, is above CARRY_HI or below CARRY_LO. It is no adder's carry (C5). -/
def carryFlag (r : Word) : Bool := decide (carryHi < r.toInt) || decide (r.toInt < carryLo)

/-- `update_flags(r)` of R27: sets both flags at once. -/
def State.updateFlags (s : State) (r : Word) : State :=
  { s with z := zeroFlag r, c := carryFlag r }

end Sys2Proof.Machine
end

