-- ==== Sys2Proof/Machine/Operands.lean ====
section
/-! DEFINITION. The operand forms: register codes (10_state.md R22), the operand read of the decoder (20_memory.md R54) and the fetch of an
instruction's operand cells (40_cycle_and_host.md R92). Immediate and address cells are taken whole (R73). -/

namespace Sys2Proof.Machine

/-- `rc(c)` of R22: codes 0 to 4 name AX, BX, CX, DX, SP; any other word resolves to AX. -/
def rc (code : Word) : Reg :=
  if code = 0 then .ax
  else if code = 1 then .bx
  else if code = 2 then .cx
  else if code = 3 then .dx
  else if code = 4 then .sp
  else .ax

/-- `x[rc(r)]`: the value of a register-code operand. -/
def State.operand (s : State) (r : Word) : Word := s.readReg (rc r)

/-- The value the spec fixes for OOR_OPERAND_POLICY (R10, D4; log entry 3). -/
def operandPolicy : Config.OorOperandPolicy := .zero

/-- `OpRead(a)` of R54 under a policy: `none` abandons the instruction. -/
def opRead (policy : Config.OorOperandPolicy) (s : State) (a : Word) : Option Word :=
  if s.inRange a then some (s.memRead a)
  else
    match policy with
    | .zero => some 0
    | .halt => none

/-- The operand cells at `a`, `a + 1`, … in increasing address order (R92), `count` of them. -/
def fetchOperands (policy : Config.OorOperandPolicy) (s : State) (a : Word) : Nat → Option (List Word)
  | 0 => some []
  | count + 1 =>
    match opRead policy s a with
    | none => none
    | some v => (fetchOperands policy s (a + 1) count).map (fun rest => v :: rest)

end Sys2Proof.Machine
end

