-- ==== Sys2Proof/Machine/Arithmetic.lean ====
section
/-! DEFINITION. ADD, SUB, MUL, DIV and CMP (42_arithmetic.md): each computes its exact result and reduces it with `wrap` (R130); both source
registers are read before anything is written (R24). -/

namespace Sys2Proof.Machine

/-- `wrap(a + b exact)` (R131). -/
def sumWord (a b : Word) : Word := wrap (a.toInt + b.toInt)

/-- `wrap(a - b exact)` (R132, R137). -/
def differenceWord (a b : Word) : Word := wrap (a.toInt - b.toInt)

/-- `wrap(a * b exact)` (R133). -/
def productWord (a b : Word) : Word := wrap (a.toInt * b.toInt)

/-- `wrap(tdiv(a, b) exact)` (R134, R135): the quotient rounded toward zero; used only for `b` not 0. -/
def quotientWord (a b : Word) : Word := wrap (a.toInt.tdiv b.toInt)

/-- What ADD, SUB, MUL and a DIV that divides do with their result `v`: write it to `x[rc(r1)]`, update the flags from it, advance. -/
def State.writeResult (s : State) (op : Opcode) (r1 v : Word) : State :=
  ((s.writeReg (rc r1) v).updateFlags v).advance op

/-- ADD r1, r2 (R131). -/
def execAdd (r1 r2 : Word) (s : State) : Host.Outcome State Fault Refusal :=
  .next (s.writeResult .add r1 (sumWord (s.operand r1) (s.operand r2)))

/-- SUB r1, r2 (R132). -/
def execSub (r1 r2 : Word) (s : State) : Host.Outcome State Fault Refusal :=
  .next (s.writeResult .sub r1 (differenceWord (s.operand r1) (s.operand r2)))

/-- MUL r1, r2 (R133). -/
def execMul (r1 r2 : Word) (s : State) : Host.Outcome State Fault Refusal :=
  .next (s.writeResult .mul r1 (productWord (s.operand r1) (s.operand r2)))

/-- DIV r1, r2 (R134): truncating division; a zero divisor halts, emits DivByZero, leaves the destination and the flags, and still
advances pc (R136). -/
def execDiv (r1 r2 : Word) (s : State) : Host.Outcome State Fault Refusal :=
  if s.operand r2 = 0 then .next ((s.halt.emit .divByZero).advance .div)
  else .next (s.writeResult .div r1 (quotientWord (s.operand r1) (s.operand r2)))

/-- CMP r1, r2 (R137): the flags of the wrapped difference; no register is written. -/
def execCmp (r1 r2 : Word) (s : State) : Host.Outcome State Fault Refusal :=
  .next ((s.updateFlags (differenceWord (s.operand r1) (s.operand r2))).advance .cmp)

end Sys2Proof.Machine
end

