-- ==== Sys2Proof/Machine/Control.lean ====
section
/-! DEFINITION. JMP, JEQ and JNE (43_control.md): the target is the address cell, verbatim, and is not checked at the jump (R91). -/

namespace Sys2Proof.Machine

/-- JMP addr (R150). -/
def execJmp (addr : Word) (s : State) : Host.Outcome State Fault Refusal :=
  .next (s.setPc addr)

/-- JEQ r1, r2, addr (R151): taken when the two registers hold the same value. -/
def execJeq (r1 r2 addr : Word) (s : State) : Host.Outcome State Fault Refusal :=
  if s.operand r1 = s.operand r2 then .next (s.setPc addr) else .next (s.advance .jeq)

/-- JNE r1, r2, addr (R152): taken when they do not. -/
def execJne (r1 r2 addr : Word) (s : State) : Host.Outcome State Fault Refusal :=
  if s.operand r1 = s.operand r2 then .next (s.advance .jne) else .next (s.setPc addr)

end Sys2Proof.Machine
end

