-- ==== Sys2Proof/Machine/DataTransfer.lean ====
section
/-! DEFINITION. LOAD and STORE (41_data_transfer.md). In every meaning `s` is the state after the operand cells were read, pc still at the opcode
cell (R25, R92). -/

namespace Sys2Proof.Machine

/-- LOAD r, imm (R120): `x[rc(r)] <- imm`, the whole cell value. -/
def execLoad (r imm : Word) (s : State) : Host.Outcome State Fault Refusal :=
  .next ((s.writeReg (rc r) imm).advance .load)

/-- STORE r, addr (R121): `mem[addr] <- x[rc(r)]` when in range; silently nothing otherwise. -/
def execStore (r addr : Word) (s : State) : Host.Outcome State Fault Refusal :=
  .next ((s.memWrite addr (s.operand r)).advance .store)

end Sys2Proof.Machine
end

