-- ==== Sys2Proof/Machine/System.lean ====
section
/-! DEFINITION. PRINT and HALT (44_system.md). -/

namespace Sys2Proof.Machine

/-- PRINT r (R160): delivers `x[rc(r)]` as a number on the event channel. -/
def execPrint (r : Word) (s : State) : Host.Outcome State Fault Refusal :=
  .next ((s.emit (.print (s.operand r))).advance .print)

/-- HALT (R161): clears the run state and advances past its own cell. -/
def execHalt (s : State) : Host.Outcome State Fault Refusal :=
  .next (s.halt.advance .halt)

end Sys2Proof.Machine
end

