-- ==== Sys2Proof/Machine/Dispatch.lean ====
section
/-! DEFINITION. One arm for each instruction: its meaning (41_data_transfer.md to 44_system.md). -/

namespace Sys2Proof.Machine

def exec (i : Instr) (s : State) : Host.Outcome State Fault Refusal :=
  match i with
  | .load r imm => Sys2Proof.Machine.execLoad r imm s
  | .store r addr => Sys2Proof.Machine.execStore r addr s
  | .add r1 r2 => Sys2Proof.Machine.execAdd r1 r2 s
  | .sub r1 r2 => Sys2Proof.Machine.execSub r1 r2 s
  | .mul r1 r2 => Sys2Proof.Machine.execMul r1 r2 s
  | .div r1 r2 => Sys2Proof.Machine.execDiv r1 r2 s
  | .jmp addr => Sys2Proof.Machine.execJmp addr s
  | .jeq r1 r2 addr => Sys2Proof.Machine.execJeq r1 r2 addr s
  | .jne r1 r2 addr => Sys2Proof.Machine.execJne r1 r2 addr s
  | .cmp r1 r2 => Sys2Proof.Machine.execCmp r1 r2 s
  | .print r => Sys2Proof.Machine.execPrint r s
  | .halt => Sys2Proof.Machine.execHalt s

end Sys2Proof.Machine
end

