-- ==== Sys2Proof/Machine/Fetch.lean ====
section
/-! DEFINITION. Stages 2 and 3 of the step (40_cycle_and_host.md R90): fetching the opcode cell at an in-range pc, decoding it, and fetching its
operand cells; and placing an instruction's cells where the next step fetches. -/

namespace Sys2Proof.Machine

/-- What the fetch at pc finds. -/
inductive Fetched where
  /-- The opcode cell is none of 1..12 (R78). -/
  | unknown
  /-- An operand cell lies outside memory under the policy HALT (R54). -/
  | abandoned
  /-- A whole instruction. -/
  | instr (i : Instr)
  deriving DecidableEq, Repr

/-- R90 stages 2 and 3, R92: the opcode cell, then the operand cells its opcode calls for, all from the current memory. -/
def fetch (policy : Config.OorOperandPolicy) (s : State) : Fetched :=
  match decodeOpcode (s.memRead s.pc) with
  | none => .unknown
  | some op =>
    match fetchOperands policy s (s.pc + 1) op.operandCount with
    | none => .abandoned
    | some operands => .instr (assemble op operands)

/-- Stage 1's test of R90: running, and pc in range. -/
def State.fetches (s : State) : Bool := s.running && s.inRange s.pc

/-- Where `placeCells` puts an instruction: at pc when the longest instruction fits there, else at address 0 (log entry 12). -/
def State.placeBase (s : State) : Word :=
  if s.inRange s.pc && s.inRange (s.pc + 3) then s.pc else 0

/-- Stores cells where the next step fetches and lets it run: the host's LOAD_PROGRAM (R100) at the pc the machine stands at. -/
def State.placeCells (s : State) (cells : List Word) : State :=
  { s with
    mem := s.mem.writeCells (cellIndex s.placeBase) (cells.take (s.capacity - cellIndex s.placeBase)),
    pc := s.placeBase,
    running := true }

end Sys2Proof.Machine
end

