-- ==== Sys2Proof/Machine/Step.lean ====
section
/-! DEFINITION. `STEP` (40_cycle_and_host.md R90): one instruction, or a halt, or nothing. -/

namespace Sys2Proof.Machine

/-- R90 under an operand policy. Stage 1 halts, which on a halted machine changes nothing (R94); an unknown opcode halts with pc
unchanged (R78); so does an operand cell outside memory under the policy HALT (R54, R92). -/
def stepUnder (policy : Config.OorOperandPolicy) (s : State) : Host.Outcome State Fault Refusal :=
  if s.fetches then
    match fetch policy s with
    | .unknown => .next s.halt
    | .abandoned => .next s.halt
    | .instr i => exec i s
  else .next s.halt

/-- `STEP` of this CORE: R90 under the policy the spec fixes (R10). -/
def step (s : State) : Host.Outcome State Fault Refusal := stepUnder operandPolicy s

/-- `s` with the table's instruction placed where `step` fetches next, and the machine running (log entry 12). -/
def State.withFetchWord (s : State) (nbits w : Nat) : State := s.placeCells (tableCells nbits w)

end Sys2Proof.Machine
end

