-- ==== Sys2Proof/Machine/HostOps.lean ====
section
/-! DEFINITION. The host's operations besides STEP (40_cycle_and_host.md section 3, 70_reset_and_hazards.md): CONSTRUCT, LOAD_PROGRAM, the accessors and
RUN. Each is complete before the next operation begins (R108), so each is one function of the state. -/

namespace Sys2Proof.Machine

/-- `CONSTRUCT(capacity)` of R190; refused outside the range of R8 (D5). -/
def construct (capacity : Int) : Option State :=
  if capacityAdmitted capacity then some (State.constructed capacity.toNat) else none

/-- `LOAD_PROGRAM` of R100 on cells: copies as many as fit to address 0 up, sets pc to 0 and the run state, and leaves everything
else (R101, R192). -/
def loadProgram (s : State) (program : List Word) : State :=
  { s with mem := s.mem.writeCells 0 (program.take s.capacity), pc := 0, running := true }

/-- `LOAD_PROGRAM` of R100 on integers: refused when an element does not fit a cell (D11). -/
def loadProgramInts (s : State) (program : List Int) : Option State :=
  if programAdmitted program then some (loadProgram s (program.map wrap)) else none

/-- `READ_REG(id)` of R103; the identifier is an optional name, and `none` reads 0 (R104). -/
def readRegister (s : State) (id : Option Reg) : Word :=
  match id with
  | some r => s.readReg r
  | none => 0

/-- `READ_MEM(a)` of R103. -/
def readMemory (s : State) (a : Word) : Word := if s.inRange a then s.memRead a else 0

/-- `READ_PC()` of R103. -/
def readPc (s : State) : Word := s.pc

/-- `READ_RUNNING()` of R103. -/
def readRunning (s : State) : Bool := s.running

/-- `READ_ZERO()` of R103. -/
def readZero (s : State) : Bool := s.z

/-- `READ_CARRY()` of R103. -/
def readCarry (s : State) : Bool := s.c

/-- `RUN` of R95, `while running: STEP()`, cut off after `fuel` steps: `some` of the final state when the machine has halted by
then, `none` when RUN has not returned yet (O11; log entry 10). -/
def runFuel : Nat → State → Option State
  | 0, s => if s.running then none else some s
  | fuel + 1, s =>
    if s.running then
      match step s with
      | .next t => runFuel fuel t
      | .fault _ => none
      | .refused _ => none
    else some s

end Sys2Proof.Machine
end

