-- ==== Sys2Proof/Safety.lean ====
section
/-! DEFINITION. The terms claims use: the halt conditions of 60_exceptions.md R170 in the order of R173, the state invariant, the states a host can
reach (R107), when RUN returns (R95), and the frame predicates. -/

namespace Sys2Proof.Machine

/-- The labels of R170. They are computed from a state, never stored in one, and no rule reads them (R33; log entry 13). -/
inductive HaltLabel where
  /-- `HALT_INSTR` -/
  | haltInstr
  /-- `HALT_UNKNOWN` -/
  | unknown
  /-- `HALT_DIV0` -/
  | div0
  /-- `HALT_PC_RANGE` -/
  | pcRange
  /-- `HALT_OPERAND_RANGE` (policy HALT only) -/
  | operandRange
  deriving DecidableEq, Repr

/-- An instruction's own halt condition (R173, item 5): no instruction has two. -/
def ownHalt (i : Instr) (s : State) : Option HaltLabel :=
  match i with
  | .load _ _ => none
  | .store _ _ => none
  | .add _ _ => none
  | .sub _ _ => none
  | .mul _ _ => none
  | .div _ r2 => if s.operand r2 = 0 then some .div0 else none
  | .jmp _ => none
  | .jeq _ _ _ => none
  | .jne _ _ _ => none
  | .cmp _ _ => none
  | .print _ => none
  | .halt => some .haltInstr

/-- The halt condition a step at `s` meets, in the order of R173: none on a halted machine. -/
def haltCondition (policy : Config.OorOperandPolicy) (s : State) : Option HaltLabel :=
  if s.running = false then none
  else if s.inRange s.pc = false then some .pcRange
  else
    match fetch policy s with
    | .unknown => some .unknown
    | .abandoned => some .operandRange
    | .instr i => ownHalt i s

/-- The instruction a step at `s` performs, if it performs one. -/
def currentInstr (s : State) : Option Instr :=
  if s.fetches then
    match fetch operandPolicy s with
    | .unknown => none
    | .abandoned => none
    | .instr i => some i
  else none

/-- The cells a decoder standing at pc is given: the opcode cell and the next three through `OpRead` under the spec's policy
(R54: 0 outside memory). -/
def State.cellsAtPc (s : State) : List Word :=
  [s.memRead s.pc, readMemory s (s.pc + 1), readMemory s (s.pc + 2), readMemory s (s.pc + 3)]

/-- The invariant of every reachable state: memory is in canonical form, lists no byte outside the `capacity` cells (R31), and the
capacity is admitted (R8). -/
structure State.Inv (s : State) : Prop where
  /-- The canonical form. -/
  memWf : s.mem.wf
  /-- No cell outside memory. -/
  memWithin : s.mem.within s.capacity
  /-- R8. -/
  capacityLe : s.capacity ≤ Config.maxCapacity

/-- The states the host's operations lead to (R107): construction, LOAD_PROGRAM, STEP; RUN is repeated STEP (R95). -/
inductive Reachable : State → Prop where
  | construct {capacity : Int} {s : State} (h : construct capacity = some s) : Reachable s
  | load {s t : State} {program : List Int} (hs : Reachable s) (h : loadProgramInts s program = some t) : Reachable t
  | step {s t : State} (hs : Reachable s) (h : step s = .next t) : Reachable t

/-- RUN started at `s` returns, with final state `t` (R95). -/
def RunReturns (s t : State) : Prop := ∃ fuel, runFuel fuel s = some t

/-- Every register but `r` holds what it held. -/
def SameRegsBut (r : Reg) (s t : State) : Prop := ∀ q, q ≠ r → t.readReg q = s.readReg q

/-- Every register holds what it held. -/
def SameRegs (s t : State) : Prop := ∀ q, t.readReg q = s.readReg q

/-- Both flags are unchanged. -/
def SameFlags (s t : State) : Prop := t.z = s.z ∧ t.c = s.c

/-- The flags of `t` are those R27 gives for the result `v`, with the thresholds of R11. -/
def FlagsOf (v : Word) (t : State) : Prop :=
  (t.z = true ↔ v.toInt = 0) ∧ (t.c = true ↔ 65535 < v.toInt ∨ v.toInt < -32768)

/-- Memory has the same length and every byte of it reads as before. -/
def SameMemory (s t : State) : Prop :=
  t.capacity = s.capacity ∧ ∀ a, Memory.read t.mem a = Memory.read s.mem a

/-- Memory has the same length and every byte outside the cell `cell` reads as before. -/
def SameMemoryButCell (cell : Nat) (s t : State) : Prop :=
  t.capacity = s.capacity ∧
    ∀ a, a < cellByte cell 0 ∨ cellByte cell 3 < a → Memory.read t.mem a = Memory.read s.mem a

/-- The event channel is unchanged. -/
def SameEvents (s t : State) : Prop := t.events = s.events

/-- The two states agree on everything but the flags. -/
def AgreeButFlags (s t : State) : Prop := { s with z := t.z, c := t.c } = t

end Sys2Proof.Machine
end

