-- ==== Sys2Proof/Certificates/Slice0/Obligations.lean ====
section
/-! DEFINITION. The statements for the provers. Each docstring names the rules of spec/ it rests on. -/

open Sys2Proof Sys2Proof.Machine

/-! Encoding (30_encoding.md). -/

/-- Words written out from the encodings of R74, numbered as the opcode table numbers bits (cell k is bits 32k+31..32k), decode to
their instructions: `LOAD AX, 42`; `STORE SP, -1`; `DIV AX, BX`; `JMP 9`; `JNE AX, CX, 9`; `PRINT r99`; `HALT`; and opcode 0
and 13 to none. -/
def Obligations.SpecWordsDecodeToTheirInstructions : Prop :=
  decodeTableWord 96 0x0000002A0000000000000001 = some (.load 0 42) ∧
  decodeTableWord 96 0xFFFFFFFF0000000400000002 = some (.store 4 (-1)) ∧
  decodeTableWord 96 0x000000010000000000000006 = some (.div 0 1) ∧
  decodeTableWord 64 0x0000000900000007 = some (.jmp 9) ∧
  decodeTableWord 128 0x00000009000000020000000000000009 = some (.jne 0 2 9) ∧
  decodeTableWord 64 0x000000630000000B = some (.print 99) ∧
  decodeTableWord 32 0x0000000C = some .halt ∧
  decodeTableWord 32 0x00000000 = none ∧
  decodeTableWord 32 0x0000000D = none

/-- R74: the opcode map, row by row, with the operand cells in the order of R72; and every other opcode cell is unknown. -/
def Obligations.OpcodeMapDecodesEveryRow : Prop :=
  ∀ (x y t : Word) (rest : List Word),
    decode (1 :: x :: y :: rest) = .ok (.load x y, rest) ∧
    decode (2 :: x :: y :: rest) = .ok (.store x y, rest) ∧
    decode (3 :: x :: y :: rest) = .ok (.add x y, rest) ∧
    decode (4 :: x :: y :: rest) = .ok (.sub x y, rest) ∧
    decode (5 :: x :: y :: rest) = .ok (.mul x y, rest) ∧
    decode (6 :: x :: y :: rest) = .ok (.div x y, rest) ∧
    decode (7 :: t :: rest) = .ok (.jmp t, rest) ∧
    decode (8 :: x :: y :: t :: rest) = .ok (.jeq x y t, rest) ∧
    decode (9 :: x :: y :: t :: rest) = .ok (.jne x y t, rest) ∧
    decode (10 :: x :: y :: rest) = .ok (.cmp x y, rest) ∧
    decode (11 :: x :: rest) = .ok (.print x, rest) ∧
    decode (12 :: rest) = .ok (.halt, rest) ∧
    ∀ w : Word, w.toInt < 1 ∨ 12 < w.toInt → decode (w :: rest) = .error (.unknownOpcode w)

/-- Decoding and encoding agree, in both directions: a run of cells decodes to a well-formed instruction and a rest exactly when it is that
instruction's cells followed by that rest. So no bit of an encoding is dropped and each run has one meaning (R71, R72, R74). -/
def Obligations.DecodeInvertsEncode : Prop :=
  ∀ (cells : List Word) (i : Instr) (rest : List Word),
    (decode cells = .ok (i, rest) ∧ i.wellFormed = true) ↔ cells = encode i ++ rest

/-- R70, R71: a program is its instructions' cells with no header and no separator, and no two programs have the same cells. -/
def Obligations.ProgramCellsParseUniquely : Prop :=
  ∀ p q : List Instr, encodeProgram p = encodeProgram q → p = q

/-- R76: the opcode cell alone decides the length. Two runs with the same opcode cell, if both decode, give instructions of one
opcode and use up one and the same number of cells, its width; and a run decodes whenever it is that long. -/
def Obligations.OpcodeCellAloneDecidesLength : Prop :=
  ∀ (w : Word) (xs ys xs' : List Word) (i : Instr), decode (w :: xs) = .ok (i, xs') →
    (w :: xs).length = i.opcode.width + xs'.length ∧
    (i.opcode.width ≤ (w :: ys).length →
      ∃ j ys', decode (w :: ys) = .ok (j, ys') ∧ j.opcode = i.opcode ∧ (w :: ys).length = i.opcode.width + ys'.length)

/-! Values, registers, flags. -/

/-- R12: `wrap(v)` is the unique value of the ISA congruent to `v` modulo 2^32. -/
def Obligations.WrapIsTheUniqueResidue : Prop :=
  ∀ v : Int,
    minValue ≤ (wrap v).toInt ∧ (wrap v).toInt ≤ maxValue ∧ (wrap v).toInt % 4294967296 = v % 4294967296 ∧
    ∀ w : Word, w.toInt % 4294967296 = v % 4294967296 → w = wrap v

/-- The exact-then-wrap arithmetic of R130 and R135 is the two's-complement arithmetic of 32-bit vectors. -/
def Obligations.ExactArithmeticAgreesWithBitVectors : Prop :=
  ∀ a b : Word,
    sumWord a b = a + b ∧ differenceWord a b = a - b ∧ productWord a b = a * b ∧
    (b ≠ 0 → quotientWord a b = a.sdiv b)

/-- R135: DIV by a non-zero divisor rounds toward zero (the dividend is quotient times divisor plus a remainder smaller than the divisor that is
zero or has the dividend's sign), except MIN / -1, which wraps to MIN, sets C and clears Z. -/
def Obligations.DivisionRoundsTowardZero : Prop :=
  ∀ (r1 r2 : Word) (s : State) (a b : Int), (s.readReg (rc r1)).toInt = a → (s.readReg (rc r2)).toInt = b → b ≠ 0 →
    ∃ t, exec (.div r1 r2) s = .next t ∧
      ((a ≠ minValue ∨ b ≠ -1) →
        ∃ rem : Int, a = (t.readReg (rc r1)).toInt * b + rem ∧ rem.natAbs < b.natAbs ∧ (rem = 0 ∨ rem.sign = a.sign)) ∧
      (a = minValue → b = -1 → (t.readReg (rc r1)).toInt = minValue ∧ t.c = true ∧ t.z = false)

/-- R22: a register code of 0 to 4 names AX, BX, CX, DX, SP in that order (R20); any other word, negative ones included, names AX. -/
def Obligations.RegisterCodesResolve : Prop :=
  rc 0 = .ax ∧ rc 1 = .bx ∧ rc 2 = .cx ∧ rc 3 = .dx ∧ rc 4 = .sp ∧
  ∀ code : Word, code.toInt < 0 ∨ 4 < code.toInt → rc code = .ax

/-- R27: `update_flags(r)` sets Z to r = 0 and C to r > 65535 or r < -32768, both at once, and nothing else. -/
def Obligations.UpdateFlagsSetsBoth : Prop :=
  ∀ (r : Word) (s : State),
    FlagsOf r (s.updateFlags r) ∧ SameRegs s (s.updateFlags r) ∧ (s.updateFlags r).pc = s.pc ∧
    (s.updateFlags r).running = s.running ∧ SameMemory s (s.updateFlags r) ∧ SameEvents s (s.updateFlags r)

/-! What each instruction does: it answers a next state, with its result and its frame. Each also gives its cells. -/

/-- R120: LOAD writes the whole immediate cell to x[rc(r)], advances by 3, and changes nothing else. -/
def Obligations.LoadWritesImmediate : Prop :=
  ∀ (r imm : Word) (s : State), encode (.load r imm) = [1, r, imm] ∧ ∃ t, exec (.load r imm) s = .next t ∧
    t.readReg (rc r) = imm ∧ SameRegsBut (rc r) s t ∧ t.pc = s.pc + 3 ∧
    SameFlags s t ∧ t.running = s.running ∧ SameMemory s t ∧ SameEvents s t

/-- R121: STORE writes x[rc(r)] to cell addr when 0 <= addr < CAPACITY, every other cell reading as before; otherwise it writes
nothing; either way it advances by 3 and changes no register, flag, run state or event. -/
def Obligations.StoreWritesOneCellOrNothing : Prop :=
  ∀ (r addr : Word) (s : State), encode (.store r addr) = [2, r, addr] ∧ ∃ t, exec (.store r addr) s = .next t ∧
    (0 ≤ addr.toInt ∧ addr.toInt < (s.capacity : Int) →
      t.memRead addr = s.readReg (rc r) ∧ ∀ b, b ≠ cellIndex addr → t.mem.readCell b = s.mem.readCell b) ∧
    (addr.toInt < 0 ∨ (s.capacity : Int) ≤ addr.toInt → SameMemory s t) ∧
    SameRegs s t ∧ t.pc = s.pc + 3 ∧ SameFlags s t ∧ t.running = s.running ∧ t.capacity = s.capacity ∧ SameEvents s t

/-- STORE's frame in the bytes memory is held in (the model's choice, log entry 1; R53, R121): with addr in range, every byte but the four of
cell addr reads as before, and the four are those of x[rc(r)]; with addr out of range every byte reads as before. -/
def Obligations.StoreLeavesEveryOtherByte : Prop :=
  ∀ (r addr : Word) (s : State), ∃ t, exec (.store r addr) s = .next t ∧
    (s.inRange addr = true → SameMemoryButCell (cellIndex addr) s t ∧
      t.mem.read (cellByte (cellIndex addr) 3) ++ t.mem.read (cellByte (cellIndex addr) 2) ++
        t.mem.read (cellByte (cellIndex addr) 1) ++ t.mem.read (cellByte (cellIndex addr) 0) = s.readReg (rc r)) ∧
    (s.inRange addr = false → SameMemory s t)

/-- R131: ADD writes wrap(a + b) to x[rc(r1)] and sets the flags from it. -/
def Obligations.AddWritesWrappedSum : Prop :=
  ∀ (r1 r2 : Word) (s : State), encode (.add r1 r2) = [3, r1, r2] ∧ ∃ t, exec (.add r1 r2) s = .next t ∧
    t.readReg (rc r1) = wrap ((s.readReg (rc r1)).toInt + (s.readReg (rc r2)).toInt) ∧
    FlagsOf (t.readReg (rc r1)) t ∧ SameRegsBut (rc r1) s t ∧ t.pc = s.pc + 3 ∧
    t.running = s.running ∧ SameMemory s t ∧ SameEvents s t

/-- R132: SUB writes wrap(a - b) to x[rc(r1)] and sets the flags from it. -/
def Obligations.SubWritesWrappedDifference : Prop :=
  ∀ (r1 r2 : Word) (s : State), encode (.sub r1 r2) = [4, r1, r2] ∧ ∃ t, exec (.sub r1 r2) s = .next t ∧
    t.readReg (rc r1) = wrap ((s.readReg (rc r1)).toInt - (s.readReg (rc r2)).toInt) ∧
    FlagsOf (t.readReg (rc r1)) t ∧ SameRegsBut (rc r1) s t ∧ t.pc = s.pc + 3 ∧
    t.running = s.running ∧ SameMemory s t ∧ SameEvents s t

/-- R133: MUL writes wrap(a * b) to x[rc(r1)] and sets the flags from it. -/
def Obligations.MulWritesWrappedProduct : Prop :=
  ∀ (r1 r2 : Word) (s : State), encode (.mul r1 r2) = [5, r1, r2] ∧ ∃ t, exec (.mul r1 r2) s = .next t ∧
    t.readReg (rc r1) = wrap ((s.readReg (rc r1)).toInt * (s.readReg (rc r2)).toInt) ∧
    FlagsOf (t.readReg (rc r1)) t ∧ SameRegsBut (rc r1) s t ∧ t.pc = s.pc + 3 ∧
    t.running = s.running ∧ SameMemory s t ∧ SameEvents s t

/-- R134, R136: DIV with b not 0 writes wrap(tdiv(a, b)) to x[rc(r1)] and sets the flags from it; with b = 0 it halts and emits DivByZero,
leaving every register and both flags; either way it advances by 3 and leaves memory. -/
def Obligations.DivDividesOrHalts : Prop :=
  ∀ (r1 r2 : Word) (s : State), encode (.div r1 r2) = [6, r1, r2] ∧ ∃ t, exec (.div r1 r2) s = .next t ∧
    (s.readReg (rc r2) ≠ 0 →
      t.readReg (rc r1) = wrap ((s.readReg (rc r1)).toInt.tdiv (s.readReg (rc r2)).toInt) ∧
      FlagsOf (t.readReg (rc r1)) t ∧ SameRegsBut (rc r1) s t ∧ t.running = s.running ∧ SameEvents s t) ∧
    (s.readReg (rc r2) = 0 →
      SameRegs s t ∧ SameFlags s t ∧ t.running = false ∧ t.events = s.events ++ [.divByZero]) ∧
    t.pc = s.pc + 3 ∧ SameMemory s t

/-- R137: CMP sets the flags from wrap(a - b) and writes no register; so Z says exactly whether the two signed values are equal. -/
def Obligations.CmpSetsFlagsOnly : Prop :=
  ∀ (r1 r2 : Word) (s : State), encode (.cmp r1 r2) = [10, r1, r2] ∧ ∃ t, exec (.cmp r1 r2) s = .next t ∧
    FlagsOf (wrap ((s.readReg (rc r1)).toInt - (s.readReg (rc r2)).toInt)) t ∧
    (t.z = true ↔ (s.readReg (rc r1)).toInt = (s.readReg (rc r2)).toInt) ∧
    SameRegs s t ∧ t.pc = s.pc + 3 ∧ t.running = s.running ∧ SameMemory s t ∧ SameEvents s t

/-- R150: JMP replaces pc by its address cell, whatever that is, and changes nothing else; if that is out of range, it is the next step
that halts. -/
def Obligations.JmpReplacesPc : Prop :=
  ∀ (addr : Word) (s : State), encode (.jmp addr) = [7, addr] ∧ ∃ t, exec (.jmp addr) s = .next t ∧
    t.pc = addr ∧ SameRegs s t ∧ SameFlags s t ∧ t.running = s.running ∧ SameMemory s t ∧ SameEvents s t ∧
    (t.running = true → t.pc.toInt < 0 ∨ (t.capacity : Int) ≤ t.pc.toInt → step t = .next { t with running := false })

/-- R151: JEQ jumps when the two registers' signed values are equal and advances by 4 otherwise; nothing but pc changes; an
out-of-range pc halts at the next step. -/
def Obligations.JeqJumpsWhenEqual : Prop :=
  ∀ (r1 r2 addr : Word) (s : State), encode (.jeq r1 r2 addr) = [8, r1, r2, addr] ∧ ∃ t, exec (.jeq r1 r2 addr) s = .next t ∧
    ((s.readReg (rc r1)).toInt = (s.readReg (rc r2)).toInt → t.pc = addr) ∧
    ((s.readReg (rc r1)).toInt ≠ (s.readReg (rc r2)).toInt → t.pc = s.pc + 4) ∧
    SameRegs s t ∧ SameFlags s t ∧ t.running = s.running ∧ SameMemory s t ∧ SameEvents s t ∧
    (t.running = true → t.pc.toInt < 0 ∨ (t.capacity : Int) ≤ t.pc.toInt → step t = .next { t with running := false })

/-- R152: JNE jumps when the two registers' signed values differ and advances by 4 otherwise; nothing but pc changes; an
out-of-range pc halts at the next step. -/
def Obligations.JneJumpsWhenDifferent : Prop :=
  ∀ (r1 r2 addr : Word) (s : State), encode (.jne r1 r2 addr) = [9, r1, r2, addr] ∧ ∃ t, exec (.jne r1 r2 addr) s = .next t ∧
    ((s.readReg (rc r1)).toInt ≠ (s.readReg (rc r2)).toInt → t.pc = addr) ∧
    ((s.readReg (rc r1)).toInt = (s.readReg (rc r2)).toInt → t.pc = s.pc + 4) ∧
    SameRegs s t ∧ SameFlags s t ∧ t.running = s.running ∧ SameMemory s t ∧ SameEvents s t ∧
    (t.running = true → t.pc.toInt < 0 ∨ (t.capacity : Int) ≤ t.pc.toInt → step t = .next { t with running := false })

/-- R160: PRINT appends Print(x[rc(r)]) to the event channel, advances by 2, and changes nothing else. -/
def Obligations.PrintEmitsRegister : Prop :=
  ∀ (r : Word) (s : State), encode (.print r) = [11, r] ∧ ∃ t, exec (.print r) s = .next t ∧
    t.events = s.events ++ [.print (s.readReg (rc r))] ∧ t.pc = s.pc + 2 ∧
    SameRegs s t ∧ SameFlags s t ∧ t.running = s.running ∧ SameMemory s t

/-- R161: HALT clears the run state, advances by 1, and changes nothing else; the next step then changes nothing. -/
def Obligations.HaltStopsPastItself : Prop :=
  ∀ s : State, encode .halt = [12] ∧ ∃ t, exec .halt s = .next t ∧
    t.running = false ∧ t.pc = s.pc + 1 ∧ SameRegs s t ∧ SameFlags s t ∧ SameMemory s t ∧ SameEvents s t ∧
    step t = .next t

/-- R24 and the corner cases of R131 to R137, R151, R152: when both codes resolve to one register, its value is used for both operands.
ADD doubles, SUB leaves 0, MUL squares, DIV gives 1 (or halts on 0), CMP sets Z and clears C, JEQ is taken, JNE is not. -/
def Obligations.SameRegisterForBothOperands : Prop :=
  ∀ (r1 r2 addr : Word) (s : State), rc r1 = rc r2 →
    (∃ t, exec (.add r1 r2) s = .next t ∧ t.readReg (rc r1) = s.readReg (rc r1) + s.readReg (rc r1)) ∧
    (∃ t, exec (.sub r1 r2) s = .next t ∧ t.readReg (rc r1) = 0 ∧ t.z = true ∧ t.c = false) ∧
    (∃ t, exec (.mul r1 r2) s = .next t ∧ t.readReg (rc r1) = s.readReg (rc r1) * s.readReg (rc r1)) ∧
    (s.readReg (rc r1) ≠ 0 → ∃ t, exec (.div r1 r2) s = .next t ∧ t.readReg (rc r1) = 1 ∧ t.z = false ∧ t.c = false) ∧
    (s.readReg (rc r1) = 0 → ∃ t, exec (.div r1 r2) s = .next t ∧ t.readReg (rc r1) = 0 ∧ t.running = false) ∧
    (∃ t, exec (.cmp r1 r2) s = .next t ∧ t.z = true ∧ t.c = false) ∧
    (∃ t, exec (.jeq r1 r2 addr) s = .next t ∧ t.pc = addr) ∧
    (∃ t, exec (.jne r1 r2 addr) s = .next t ∧ t.pc = s.pc + 4)

/-! The step (40_cycle_and_host.md). -/

/-- R90, R92: a running machine whose pc is in range, whose cells at pc decode to a well-formed instruction, runs it: the step is
exactly its meaning at that state (the meaning moves pc itself; the step adds nothing). -/
def Obligations.StepRunsDecodedInstruction : Prop :=
  ∀ (s : State) (i : Instr) (rest : List Word),
    s.running = true → s.inRange s.pc = true → decode s.cellsAtPc = .ok (i, rest) → i.wellFormed = true →
    step s = exec i s

/-- R71, R92, R54: an instruction whose cells lie in memory from pc up is run by the step under either operand policy. -/
def Obligations.StoredInstructionRunsUnderEitherPolicy : Prop :=
  ∀ (policy : Config.OorOperandPolicy) (s : State) (i : Instr),
    s.running = true →
    (∀ k, k < i.opcode.width →
      s.inRange (s.pc + BitVec.ofNat 32 k) = true ∧ s.memRead (s.pc + BitVec.ofNat 32 k) = (encode i).getD k 0) →
    stepUnder policy s = exec i s

/-- R94: a step of a halted machine changes nothing; a step of a running machine whose pc is out of range changes only the run state. -/
def Obligations.StepWithoutFetchOnlyHalts : Prop :=
  ∀ s : State,
    (s.running = false → step s = .next s) ∧
    (s.running = true → (s.pc.toInt < 0 ∨ (s.capacity : Int) ≤ s.pc.toInt) → step s = .next { s with running := false })

/-- R78: an opcode cell outside 1..12 clears the run state and does nothing else, under either operand policy. -/
def Obligations.UnknownOpcodeOnlyHalts : Prop :=
  ∀ (policy : Config.OorOperandPolicy) (s : State),
    s.running = true → s.inRange s.pc = true → ((s.memRead s.pc).toInt < 1 ∨ 12 < (s.memRead s.pc).toInt) →
    stepUnder policy s = .next { s with running := false }

/-- R54: OpRead of an in-range address is the cell; out of range it is 0 under ZERO and abandons the instruction under HALT. -/
def Obligations.OperandReadFollowsPolicy : Prop :=
  operandPolicy = .zero ∧
  ∀ (s : State) (a : Word),
    (0 ≤ a.toInt ∧ a.toInt < (s.capacity : Int) → ∀ policy, opRead policy s a = some (s.memRead a)) ∧
    (a.toInt < 0 ∨ (s.capacity : Int) ≤ a.toInt → opRead .zero s a = some 0 ∧ opRead .halt s a = none)

/-- R54, R92: the policies differ only on a fetched instruction with an operand cell outside memory: HALT abandons it before any write, exactly
like an unknown opcode; on every other state (nothing is fetched, or every operand cell the opcode calls for is in range, or the opcode is
unknown) the two steps are the same. -/
def Obligations.PolicyMattersOnlyPastTheEnd : Prop :=
  ∀ s : State,
    (∀ op, s.fetches = true → decodeOpcode (s.memRead s.pc) = some op →
      (∃ k, 1 ≤ k ∧ k < op.width ∧ s.inRange (s.pc + BitVec.ofNat 32 k) = false) →
      stepUnder .halt s = .next { s with running := false }) ∧
    (s.fetches = false ∨ (∀ op, decodeOpcode (s.memRead s.pc) = some op →
      ∀ k, 1 ≤ k → k < op.width → s.inRange (s.pc + BitVec.ofNat 32 k) = true) →
      stepUnder .halt s = stepUnder .zero s)

/-- R80, R170: there is no fault and no refusal. Every step, under either policy, from every state, answers a next state. -/
def Obligations.EveryStepAnswersNextState : Prop :=
  ∀ (policy : Config.OorOperandPolicy) (s : State), ∃ t, stepUnder policy s = .next t

/-- R91: pc is range-checked only at the start of a step. Whatever pc an instruction leaves, it completes (the machine still runs, unless it was
HALT or a DIV by zero); if that pc is out of range, the next step clears the run state and leaves all else, pc included. -/
def Obligations.OutOfRangePcHaltsAtNextStep : Prop :=
  ∀ (s : State) (i : Instr), currentInstr s = some i →
    ∃ t, step s = .next t ∧
      (i ≠ .halt → (∀ r1 r2, i = .div r1 r2 → s.readReg (rc r2) ≠ 0) → t.running = true) ∧
      (t.pc.toInt < 0 ∨ (t.capacity : Int) ≤ t.pc.toInt → step t = .next { t with running := false })

/-- R64: a STORE into the next opcode cell is seen by the very next fetch: the next step's instruction is the one whose opcode is the
stored value, and there is none if the stored value is no opcode. -/
def Obligations.StoreIsSeenByNextFetch : Prop :=
  ∀ (s : State) (r addr : Word), currentInstr s = some (.store r addr) → addr = s.pc + 3 → s.inRange addr = true →
    ∃ t, step s = .next t ∧ (currentInstr t).map Instr.opcode = decodeOpcode (s.readReg (rc r))

/-! Halt conditions (60_exceptions.md). -/

/-- R173: the order in which a step tests the halt conditions: none on a halted machine; then pc out of range; then an unknown opcode; then,
under HALT only, an operand cell outside memory; then the instruction's own, DIV's zero divisor or HALT. -/
def Obligations.HaltConditionsInOrder : Prop :=
  ∀ (policy : Config.OorOperandPolicy) (s : State),
    (s.running = false → haltCondition policy s = none) ∧
    (s.running = true → s.inRange s.pc = false → haltCondition policy s = some .pcRange) ∧
    (s.fetches = true → ((s.memRead s.pc).toInt < 1 ∨ 12 < (s.memRead s.pc).toInt) →
      haltCondition policy s = some .unknown) ∧
    (∀ op, s.fetches = true → decodeOpcode (s.memRead s.pc) = some op → policy = .halt →
      (∃ k, 1 ≤ k ∧ k < op.width ∧ s.inRange (s.pc + BitVec.ofNat 32 k) = false) →
      haltCondition policy s = some .operandRange) ∧
    (∀ i rest, s.fetches = true → decode s.cellsAtPc = .ok (i, rest) →
      (policy = .zero ∨ ∀ k, 1 ≤ k → k < i.opcode.width → s.inRange (s.pc + BitVec.ofNat 32 k) = true) →
      ((∃ r1 r2, i = .div r1 r2 ∧ s.readReg (rc r2) = 0) → haltCondition policy s = some .div0) ∧
      (i = .halt → haltCondition policy s = some .haltInstr) ∧
      ((∀ r1 r2, i = .div r1 r2 → s.readReg (rc r2) ≠ 0) → i ≠ .halt → haltCondition policy s = none))

/-- R170: what a halting step leaves, label by label: the run state cleared, no register, flag or memory byte changed, pc one past a HALT,
three past a DIV by zero and unchanged otherwise, and no event but DIV's DivByZero. -/
def Obligations.HaltTableStateAfter : Prop :=
  ∀ (policy : Config.OorOperandPolicy) (s : State) (label : HaltLabel), haltCondition policy s = some label →
    ∃ t, stepUnder policy s = .next t ∧ t.running = false ∧ SameRegs s t ∧ SameFlags s t ∧ SameMemory s t ∧
      (label = .haltInstr → t.pc = s.pc + 1 ∧ t.events = s.events) ∧
      (label = .div0 → t.pc = s.pc + 3 ∧ t.events = s.events ++ [.divByZero]) ∧
      (label = .unknown ∨ label = .pcRange ∨ label = .operandRange → t.pc = s.pc ∧ t.events = s.events)

/-- R29: the run state is set only by LOAD_PROGRAM and is false after construction; a step keeps it exactly when no halt condition of
R170 holds, and never sets it. -/
def Obligations.RunStateClearedExactlyByHaltConditions : Prop :=
  (∀ capacity, (State.constructed capacity).running = false) ∧
  (∀ s program, (loadProgram s program).running = true) ∧
  (∀ (policy : Config.OorOperandPolicy) (s t : State), stepUnder policy s = .next t →
    (t.running = true ↔ s.running = true ∧ haltCondition policy s = none))

/-- R181, R94: once halted, any number of further steps leaves the whole state as it is. -/
def Obligations.HaltedMachineStaysAsItIs : Prop :=
  ∀ (n : Nat) (s : State), s.running = false → Host.Core.run Sys2Proof.core n s = .next s

/-! Whole-machine rules. -/

/-- R28: a step that changes a flag performed ADD, SUB, MUL, CMP, or a DIV with a non-zero divisor. -/
def Obligations.OnlyFiveInstructionsWriteFlags : Prop :=
  ∀ s t : State, step s = .next t → ¬ SameFlags s t →
    ∃ i, currentInstr s = some i ∧
      (i.opcode ∈ [Opcode.add, .sub, .mul, .cmp] ∨ ∃ r1 r2, i = .div r1 r2 ∧ s.readReg (rc r2) ≠ 0)

/-- R28: no instruction reads a flag. Two machines that differ only in their flags step to machines that differ at most in their flags; and
afterwards either both have the same flags or each has kept its own. -/
def Obligations.FlagsAreReadByNoInstruction : Prop :=
  ∀ (s : State) (z c : Bool), ∃ t u, step s = .next t ∧ step { s with z := z, c := c } = .next u ∧
    AgreeButFlags t u ∧ (SameFlags t u ∨ (SameFlags s t ∧ u.z = z ∧ u.c = c))

/-- R106: the event channel is append-only and never read. A step appends at most one event, and what it does to everything else, and what
it appends, do not depend on what the channel holds. -/
def Obligations.EventChannelIsAppendOnlyAndUnread : Prop :=
  ∀ (s : State) (es : List Event), ∃ t new, step s = .next t ∧ t.events = s.events ++ new ∧ new.length ≤ 1 ∧
    step { s with events := es } = .next { t with events := es ++ new }

/-- R106: the only events are PRINT's, with its register's value, and those of a DIV with a zero divisor. -/
def Obligations.OnlyPrintAndDivisionByZeroEmit : Prop :=
  ∀ s t : State, step s = .next t →
    t.events = s.events ∨
    (∃ r, currentInstr s = some (.print r) ∧ t.events = s.events ++ [.print (s.readReg (rc r))]) ∨
    (∃ r1 r2, currentInstr s = some (.div r1 r2) ∧ s.readReg (rc r2) = 0 ∧ t.events = s.events ++ [.divByZero])

/-- R51, R53: a step that changes a byte of memory (bytes: log entry 1) performed a STORE to an in-range address, and the byte belongs to that
cell; the length of memory never changes (R31). -/
def Obligations.OnlyStoreChangesMemory : Prop :=
  ∀ s t : State, step s = .next t →
    t.capacity = s.capacity ∧
    ∀ a, t.mem.read a ≠ s.mem.read a →
      ∃ r addr, currentInstr s = some (.store r addr) ∧ s.inRange addr = true ∧
        cellByte (cellIndex addr) 0 ≤ a ∧ a ≤ cellByte (cellIndex addr) 3

/-- R51, R63, R122: no instruction reads a memory cell as data. Whatever memory holds, an instruction whose operand cells have been read does
the same to the registers, pc, the flags, the run state and the event channel; and which bytes it writes, and with what values, is settled
before the contents of memory (`m`, that of `s` among them) are chosen: every other byte stays as it was. -/
def Obligations.NoInstructionReadsMemoryAsData : Prop :=
  ∀ (i : Instr) (s : State), ∃ (t : State) (written : Nat → Option Byte), exec i s = .next t ∧
    ∀ m : Memory, ∃ m' : Memory, exec i { s with mem := m } = .next { t with mem := m' } ∧
      ∀ a, m'.read a = (written a).getD (m.read a)

/-- R23: a step changes at most one register, the one named by the first register code of a LOAD, ADD, SUB, MUL or DIV. -/
def Obligations.AtMostOneRegisterChanges : Prop :=
  ∀ (s t : State) (q : Reg), step s = .next t → t.readReg q ≠ s.readReg q →
    SameRegsBut q s t ∧ ∃ i r1, currentInstr s = some i ∧ i.opcode ∈ [Opcode.load, .add, .sub, .mul, .div] ∧
      i.operands.head? = some r1 ∧ rc r1 = q

/-- R21: SP has no special behaviour: a step that changes it performed an instruction whose first register-code cell is 4. -/
def Obligations.StackPointerIsOrdinary : Prop :=
  ∀ s t : State, step s = .next t → t.sp ≠ s.sp →
    ∃ i, currentInstr s = some i ∧ i.operands.head? = some 4 ∧ i.opcode ∈ [Opcode.load, .add, .sub, .mul, .div]

/-- R26, R75: what a step does to pc: unchanged when no instruction is performed; else the width advance of the instruction, or the target
of a jump. -/
def Obligations.PcAdvancesByWidthOrJumps : Prop :=
  ∀ s t : State, step s = .next t →
    (currentInstr s = none ∧ t.pc = s.pc) ∨
    (∃ i, currentInstr s = some i ∧ t.pc = s.pc + BitVec.ofNat 32 i.opcode.width) ∨
    (∃ i addr, currentInstr s = some i ∧ i.opcode ∈ [Opcode.jmp, .jeq, .jne] ∧ i.operands.getLast? = some addr ∧
      t.pc = addr)

/-- R25: pc cannot wrap: from an in-range pc of a machine with an admitted capacity, the width advance is exact. -/
def Obligations.PcAdvanceNeverWraps : Prop :=
  ∀ (s : State) (op : Opcode), s.Inv → s.inRange s.pc = true →
    (s.advance op).pc.toInt = s.pc.toInt + (op.width : Int)

/-- R52, R53: a cell reads as last written, a write leaves every other cell alone, and a write out of range has no effect at all. -/
def Obligations.CellReadsAsLastWritten : Prop :=
  ∀ (s : State) (a b v : Word),
    (s.inRange a = true → (s.memWrite a v).memRead a = v ∧ (b ≠ a → (s.memWrite a v).memRead b = s.memRead b)) ∧
    (s.inRange a = false → s.memWrite a v = s)

/-! Reset and the host's operations. -/

/-- R190, R34: construction with an admitted capacity (R8) gives the reset table, every register, flag and cell; with any other it is
refused. -/
def Obligations.ConstructionGivesResetTable : Prop :=
  ∀ capacity : Int,
    (0 ≤ capacity ∧ capacity ≤ 2147483644 → ∃ s, construct capacity = some s ∧
      s.readReg .ax = 0 ∧ s.readReg .bx = 0 ∧ s.readReg .cx = 0 ∧ s.readReg .dx = 0 ∧
      (s.readReg .sp).toInt = capacity - 1 ∧ s.pc = 0 ∧ s.z = false ∧ s.c = false ∧ s.running = false ∧
      (s.capacity : Int) = capacity ∧ (∀ a : Word, readMemory s a = 0) ∧ s.events = []) ∧
    (capacity < 0 ∨ 2147483644 < capacity → construct capacity = none)

/-- `State.reset` is construction with the spec's default capacity, 1024 (R8); that reset means this capacity is the model's
choice (log entry 2). -/
def Obligations.ResetIsDefaultConstruction : Prop :=
  construct 1024 = some State.reset ∧ State.reset.capacity = 1024 ∧ State.reset.sp.toInt = 1023 ∧
  State.reset.pc = 0 ∧ State.reset.running = false ∧ State.reset.mem = []

/-- R100, R101: LOAD_PROGRAM of integers that all fit a cell copies as many as memory has cells to address 0 up, drops the rest, keeps
every cell above, sets pc to 0 and the run state, and leaves registers, flags, capacity and events; a sequence with an element that
does not fit is refused. -/
def Obligations.LoadProgramCopiesPrefix : Prop :=
  ∀ (s : State) (program : List Int),
    ((∀ v ∈ program, minValue ≤ v ∧ v ≤ maxValue) → ∃ t, loadProgramInts s program = some t ∧
      (∀ a, a < min program.length s.capacity → (t.mem.readCell a).toInt = program.getD a 0) ∧
      (∀ a, min program.length s.capacity ≤ a → t.mem.readCell a = s.mem.readCell a) ∧
      t.pc = 0 ∧ t.running = true ∧ SameRegs s t ∧ SameFlags s t ∧ t.capacity = s.capacity ∧ SameEvents s t) ∧
    ((∃ v ∈ program, v < minValue ∨ maxValue < v) → loadProgramInts s program = none)

/-- R193, R100, R90: after LOAD_PROGRAM of an instruction's cells, with anything after them, the next step runs that instruction. -/
def Obligations.LoadedInstructionRunsFirst : Prop :=
  ∀ (s : State) (i : Instr) (rest : List Word), (encode i).length ≤ s.capacity → s.capacity ≤ Config.maxCapacity →
    step (loadProgram s (encode i ++ rest)) = exec i (loadProgram s (encode i ++ rest))

/-- R103, R104: the accessors: a register by name and 0 for no name, a cell by in-range address and 0 otherwise, pc, the run state and the
two flags. -/
def Obligations.AccessorsReadTheState : Prop :=
  ∀ (s : State) (a : Word),
    readRegister s (some .ax) = s.ax ∧ readRegister s (some .bx) = s.bx ∧ readRegister s (some .cx) = s.cx ∧
    readRegister s (some .dx) = s.dx ∧ readRegister s (some .sp) = s.sp ∧ readRegister s none = 0 ∧
    (0 ≤ a.toInt ∧ a.toInt < (s.capacity : Int) → readMemory s a = s.memRead a) ∧
    (a.toInt < 0 ∨ (s.capacity : Int) ≤ a.toInt → readMemory s a = 0) ∧
    readPc s = s.pc ∧ readRunning s = s.running ∧ readZero s = s.z ∧ readCarry s = s.c

/-- R95: RUN is repeated stepping: after any number n of steps, RUN cut off at n has returned exactly if the machine is halted, and then
with that very state. Cutting RUN off is the model's form of it (log entry 10), since RUN need not return. -/
def Obligations.RunIsRepeatedStepping : Prop :=
  ∀ (n : Nat) (s : State), ∃ t, Host.Core.run Sys2Proof.core n s = .next t ∧
    (t.running = false → runFuel n s = some t) ∧ (t.running = true → runFuel n s = none)

/-- R95, R96: RUN returns only when the machine halts, with one final state, and on a halted machine performs no step.
That it returns when some number of steps is enough is the model's form of RUN (log entry 10). -/
def Obligations.RunReturnsOneHaltedState : Prop :=
  ∀ s t : State, RunReturns s t →
    t.running = false ∧ (∀ u, RunReturns s u → u = t) ∧ (s.running = false → t = s)

/-- R95, R150: a running machine whose instruction is a jump to itself never halts, so RUN, cut off after any number
of steps (log entry 10), has not returned. -/
def Obligations.JumpToItselfNeverReturns : Prop :=
  ∀ s : State, currentInstr s = some (.jmp s.pc) → step s = .next s ∧ ∀ n, runFuel n s = none

/-! Invariants. -/

/-- Every step, under either policy, keeps the invariant: memory in canonical form (log entry 1), no cell outside memory (R31, R53), an
admitted capacity (R8). -/
def Obligations.StepKeepsInvariant : Prop :=
  ∀ (policy : Config.OorOperandPolicy) (s t : State), s.Inv → stepUnder policy s = .next t → t.Inv

/-- The invariant holds at reset. -/
def Obligations.ResetMeetsInvariant : Prop := State.reset.Inv

/-- Every state the host's operations lead to meets the invariant (R107, R8, R31). -/
def Obligations.ReachableStatesMeetInvariant : Prop := ∀ s : State, Reachable s → s.Inv
end

