-- ==== Sys2Proof/Laws/Decode.lean ====
section
/-! SUPPORT. The small lemmas of the opcode map, the decoder and the encoder. -/

namespace Sys2Proof

@[simp] theorem decodeOpcode_code (op : Opcode) : decodeOpcode op.code = some op := by
  cases op <;> decide

/-- Whatever the opcode lookup answers has that code: no two rows overlap. -/
theorem code_of_decodeOpcode {w : Word} {op : Opcode} (h : decodeOpcode w = some op) : op.code = w := by
  simpa using List.find?_some h

theorem decodeOpcode_eq_some_iff {w : Word} {op : Opcode} : decodeOpcode w = some op ↔ op.code = w :=
  ⟨code_of_decodeOpcode, fun h => h ▸ decodeOpcode_code op⟩

theorem decodeOpcode_eq_none_iff {w : Word} : decodeOpcode w = none ↔ ∀ op : Opcode, op.code ≠ w := by
  constructor
  · rintro h op rfl; simp at h
  · intro h
    cases hd : decodeOpcode w with
    | none => rfl
    | some op => exact absurd (code_of_decodeOpcode hd) (h op)

theorem operandCount_le (op : Opcode) : op.operandCount ≤ 3 := by cases op <;> decide

theorem code_range (op : Opcode) : 1 ≤ op.code.toInt ∧ op.code.toInt ≤ 12 := by cases op <;> decide

/-- A cell outside 1..12 is no opcode (R78). -/
theorem decodeOpcode_outside {w : Word} (h : w.toInt < 1 ∨ 12 < w.toInt) : decodeOpcode w = none := by
  rw [decodeOpcode_eq_none_iff]
  rintro op rfl
  have := code_range op
  omega

/-! The width column of R74. -/

@[simp] theorem width_load : Opcode.load.width = 3 := rfl
@[simp] theorem width_store : Opcode.store.width = 3 := rfl
@[simp] theorem width_add : Opcode.add.width = 3 := rfl
@[simp] theorem width_sub : Opcode.sub.width = 3 := rfl
@[simp] theorem width_mul : Opcode.mul.width = 3 := rfl
@[simp] theorem width_div : Opcode.div.width = 3 := rfl
@[simp] theorem width_jmp : Opcode.jmp.width = 2 := rfl
@[simp] theorem width_jeq : Opcode.jeq.width = 4 := rfl
@[simp] theorem width_jne : Opcode.jne.width = 4 := rfl
@[simp] theorem width_cmp : Opcode.cmp.width = 3 := rfl
@[simp] theorem width_print : Opcode.print.width = 2 := rfl
@[simp] theorem width_halt : Opcode.halt.width = 1 := rfl

theorem width_eq (op : Opcode) : op.width = op.operandCount + 1 := rfl

@[simp] theorem operands_length (i : Instr) : i.operands.length = i.opcode.operandCount := by cases i <;> rfl

@[simp] theorem encode_length (i : Instr) : (encode i).length = i.opcode.width := by
  simp [encode, Opcode.width]

@[simp] theorem assemble_opcode (op : Opcode) (operands : List Word) : (assemble op operands).opcode = op := by
  cases op <;> rfl

@[simp] theorem assemble_operands (i : Instr) : assemble i.opcode i.operands = i := by cases i <;> rfl

/-- An opcode with as many operand cells as it calls for assembles to the instruction with those operands. -/
theorem operands_assemble {op : Opcode} {cells : List Word} (h : cells.length = op.operandCount) :
    (assemble op cells).operands = cells := by
  match cells with
  | [] => cases op <;> first | rfl | simp [Opcode.operandCount, Opcode.format, Format.operandCount] at h
  | [_] => cases op <;> first | rfl | simp [Opcode.operandCount, Opcode.format, Format.operandCount] at h
  | [_, _] => cases op <;> first | rfl | simp [Opcode.operandCount, Opcode.format, Format.operandCount] at h
  | [_, _, _] => cases op <;> first | rfl | simp [Opcode.operandCount, Opcode.format, Format.operandCount] at h
  | _ :: _ :: _ :: _ :: _ =>
    have := operandCount_le op
    simp only [List.length_cons] at h
    omega

theorem decode_cons {w : Word} {rest : List Word} {op : Opcode} (h : decodeOpcode w = some op)
    (hl : op.operandCount ≤ rest.length) :
    decode (w :: rest) = .ok (assemble op (rest.take op.operandCount), rest.drop op.operandCount) := by
  simp [decode, h, Nat.not_lt.mpr hl]

/-- What an accepted run of cells is: an opcode cell and enough cells after it. -/
theorem decode_ok_cases {cells : List Word} {i : Instr} {rest : List Word} (h : decode cells = .ok (i, rest)) :
    ∃ op tail, cells = Opcode.code op :: tail ∧ op.operandCount ≤ tail.length ∧
      i = assemble op (tail.take op.operandCount) ∧ rest = tail.drop op.operandCount := by
  cases cells with
  | nil => simp [decode] at h
  | cons w tail =>
    simp only [decode] at h
    split at h
    · simp at h
    · rename_i op hop
      split at h
      · simp at h
      · obtain ⟨rfl, rfl⟩ : assemble op (tail.take op.operandCount) = i ∧ tail.drop op.operandCount = rest := by
          simpa using h
        exact ⟨op, tail, by rw [code_of_decodeOpcode hop], by omega, rfl, rfl⟩

end Sys2Proof
end

