-- ==== Sys2Proof/Laws/Memory.lean ====
section
/-! SUPPORT. The laws of memory: a byte or a cell reads as last written, a write leaves every other byte and cell alone, and every memory
operation keeps the canonical form and the bound. None of the read laws needs the canonical form. -/

namespace Sys2Proof.Machine

/-! Bytes. -/

theorem read_eraseByte (m : Memory) (a b : Nat) :
    (m.eraseByte a).read b = if b = a then Memory.unlisted else m.read b := by
  induction m with
  | nil => simp [Memory.eraseByte, Memory.read]
  | cons x rest ih =>
    obtain ⟨d, w⟩ := x
    simp only [Memory.eraseByte] at ih ⊢
    by_cases hd : d = a
    · subst hd
      simp only [bne_self_eq_false, Bool.false_eq_true, not_false_eq_true, List.filter_cons_of_neg, ih]
      by_cases hb : b = d
      · simp [hb]
      · simp [hb, Memory.read, Ne.symm hb]
    · by_cases hb : b = a
      · subst hb; simp [hd, Memory.read, ih]
      · simp [hd, hb, Memory.read, ih]

theorem read_insertByte_self (m : Memory) (a : Nat) (v : Byte) (h : ∀ x ∈ m, x.1 ≠ a) : (m.insertByte a v).read a = v := by
  induction m with
  | nil => simp [Memory.insertByte, Memory.read]
  | cons x rest ih =>
    obtain ⟨d, w⟩ := x
    have hd : d ≠ a := h (d, w) (by simp)
    have ih := ih (fun x hx => h x (by simp [hx]))
    simp only [Memory.insertByte]
    split <;> simp [Memory.read, hd, ih]

theorem read_insertByte_ne (m : Memory) (a b : Nat) (v : Byte) (h : b ≠ a) : (m.insertByte a v).read b = m.read b := by
  induction m with
  | nil => simp [Memory.insertByte, Memory.read, Ne.symm h]
  | cons x rest ih =>
    obtain ⟨d, w⟩ := x
    simp only [Memory.insertByte]
    split <;> simp [Memory.read, Ne.symm h, ih]

theorem not_listed_eraseByte (m : Memory) (a : Nat) : ∀ x ∈ m.eraseByte a, x.1 ≠ a := by
  intro x hx
  simpa using (List.mem_filter.mp hx).2

/-- A byte reads as last written, and every other byte as before. -/
theorem read_write (m : Memory) (a b : Nat) (v : Byte) :
    (m.write a v).read b = if b = a then v else m.read b := by
  unfold Memory.write
  by_cases hb : b = a
  · subst hb
    split
    · rename_i hv; simp [read_eraseByte, hv]
    · simp [read_insertByte_self _ _ _ (not_listed_eraseByte m b)]
  · split <;> simp [read_eraseByte, read_insertByte_ne, hb]

/-! Cells. -/

@[simp] theorem cellByte_inj {a b j k : Nat} (hj : j < 4) (hk : k < 4) : cellByte a j = cellByte b k ↔ a = b ∧ j = k := by
  unfold cellByte; omega

theorem read_writeCell (m : Memory) (a b : Nat) (v : Word) :
    (m.writeCell a v).read b =
      if b = cellByte a 3 then v.extractLsb' 24 8
      else if b = cellByte a 2 then v.extractLsb' 16 8
      else if b = cellByte a 1 then v.extractLsb' 8 8
      else if b = cellByte a 0 then v.extractLsb' 0 8
      else m.read b := by
  simp only [Memory.writeCell, read_write]

/-- Every byte outside the written cell reads as before. -/
theorem read_writeCell_outside (m : Memory) {a b : Nat} (v : Word) (h : b < cellByte a 0 ∨ cellByte a 3 < b) :
    (m.writeCell a v).read b = m.read b := by
  rw [read_writeCell]
  unfold cellByte at *
  repeat rw [if_neg (by omega)]

theorem append_bytes (v : Word) :
    v.extractLsb' 24 8 ++ v.extractLsb' 16 8 ++ v.extractLsb' 8 8 ++ v.extractLsb' 0 8 = v := by
  apply BitVec.eq_of_getLsbD_eq
  intro i hi
  simp only [BitVec.getLsbD_append, BitVec.getLsbD_extractLsb']
  split
  · simp_all
  · split
    · rw [show 8 + (i - 8) = i by omega]; simp; omega
    · split
      · rw [show 16 + (i - 8 - 8) = i by omega]; simp; omega
      · rw [show 24 + (i - 8 - 8 - 8) = i by omega]; simp; omega

/-- A cell reads as last written. -/
@[simp] theorem readCell_writeCell_self (m : Memory) (a : Nat) (v : Word) : (m.writeCell a v).readCell a = v := by
  simp only [Memory.readCell, read_writeCell]
  simp [append_bytes]

/-- A write leaves every other cell alone. -/
theorem readCell_writeCell_ne (m : Memory) {a b : Nat} (v : Word) (h : b ≠ a) :
    (m.writeCell a v).readCell b = m.readCell b := by
  simp only [Memory.readCell]
  repeat rw [read_writeCell_outside m v (by unfold cellByte; omega)]

theorem readCell_writeCell (m : Memory) (a b : Nat) (v : Word) :
    (m.writeCell a v).readCell b = if b = a then v else m.readCell b := by
  by_cases h : b = a
  · subst h; simp
  · simp [h, readCell_writeCell_ne m v h]

theorem readCell_congr {m n : Memory} (h : ∀ a, n.read a = m.read a) (a : Nat) : n.readCell a = m.readCell a := by
  simp [Memory.readCell, h]

@[simp] theorem readCell_nil (a : Nat) : Memory.readCell [] a = 0 := by
  simp [Memory.readCell, Memory.read, Memory.unlisted]

/-! Runs of cells. -/

/-- What a run of written cells reads as: the run inside it, as before outside. -/
theorem readCell_writeCells (m : Memory) (a : Nat) (vs : List Word) (b : Nat) :
    (m.writeCells a vs).readCell b =
      if a ≤ b ∧ b < a + vs.length then vs.getD (b - a) 0 else m.readCell b := by
  induction vs generalizing m a with
  | nil => simp [Memory.writeCells]
  | cons v rest ih =>
    rw [Memory.writeCells, ih, readCell_writeCell]
    simp only [List.length_cons]
    by_cases h1 : a + 1 ≤ b ∧ b < a + 1 + rest.length
    · rw [if_pos h1, if_pos (by omega), show b - a = (b - (a + 1)) + 1 by omega, List.getD_cons_succ]
    · rw [if_neg h1]
      by_cases h2 : b = a
      · subst h2; simp
      · rw [if_neg h2, if_neg (by omega)]

/-- Every byte outside the run reads as before. -/
theorem read_writeCells_outside (m : Memory) (a : Nat) (vs : List Word) {b : Nat}
    (h : b < 4 * a ∨ 4 * (a + vs.length) ≤ b) : (m.writeCells a vs).read b = m.read b := by
  induction vs generalizing m a with
  | nil => rfl
  | cons v rest ih =>
    simp only [List.length_cons] at h
    rw [Memory.writeCells, ih _ _ (by omega), read_writeCell_outside]
    unfold cellByte; omega

/-! The canonical form and the bound. -/

theorem eraseByte_wf {m : Memory} (a : Nat) (h : m.wf) : (m.eraseByte a).wf :=
  ⟨h.1.filter _, fun x hx => h.2 x (List.mem_of_mem_filter hx)⟩

theorem mem_insertByte {m : Memory} {a : Nat} {v : Byte} {x : Host.Cell} : x ∈ m.insertByte a v ↔ x = (a, v) ∨ x ∈ m := by
  induction m with
  | nil => simp [Memory.insertByte]
  | cons y rest ih =>
    obtain ⟨d, w⟩ := y
    simp only [Memory.insertByte]
    split
    · simp
    · simp [ih]; tauto

theorem insertByte_wf {m : Memory} {a : Nat} {v : Byte} (hv : v ≠ Memory.unlisted) (ha : ∀ x ∈ m, x.1 ≠ a) (h : m.wf) :
    (m.insertByte a v).wf := by
  refine ⟨?_, fun x hx => ?_⟩
  · have hp := h.1
    clear h
    induction m with
    | nil => simp [Memory.insertByte]
    | cons y rest ih =>
      obtain ⟨d, w⟩ := y
      have hd : d ≠ a := ha (d, w) (by simp)
      rw [List.pairwise_cons] at hp
      simp only [Memory.insertByte]
      split
      · rename_i hlt
        refine List.pairwise_cons.mpr ⟨fun x hx => ?_, List.pairwise_cons.mpr hp⟩
        rcases List.mem_cons.mp hx with rfl | hx
        · exact hlt
        · exact Nat.lt_trans hlt (hp.1 x hx)
      · refine List.pairwise_cons.mpr ⟨fun x hx => ?_, ih (fun x hx => ha x (by simp [hx])) hp.2⟩
        rcases mem_insertByte.mp hx with rfl | hx
        · simp only; omega
        · exact hp.1 x hx
  · rcases mem_insertByte.mp hx with rfl | hx
    · exact hv
    · exact h.2 x hx

theorem write_wf {m : Memory} (a : Nat) (v : Byte) (h : m.wf) : (m.write a v).wf := by
  unfold Memory.write
  split
  · exact eraseByte_wf a h
  · exact insertByte_wf ‹_› (not_listed_eraseByte m a) (eraseByte_wf a h)

theorem writeCell_wf {m : Memory} (a : Nat) (v : Word) (h : m.wf) : (m.writeCell a v).wf :=
  write_wf _ _ (write_wf _ _ (write_wf _ _ (write_wf _ _ h)))

theorem writeCells_wf {m : Memory} (a : Nat) (vs : List Word) (h : m.wf) : (m.writeCells a vs).wf := by
  induction vs generalizing m a with
  | nil => exact h
  | cons v rest ih => exact ih (a + 1) (writeCell_wf a v h)

theorem write_within {m : Memory} {a n : Nat} (v : Byte) (ha : a < 4 * n) (h : m.within n) : (m.write a v).within n := by
  intro x hx
  unfold Memory.write at hx
  split at hx
  · exact h x (List.mem_of_mem_filter hx)
  · rcases mem_insertByte.mp hx with rfl | hx
    · exact ha
    · exact h x (List.mem_of_mem_filter hx)

theorem writeCell_within {m : Memory} {a n : Nat} (v : Word) (ha : a < n) (h : m.within n) : (m.writeCell a v).within n := by
  unfold Memory.writeCell
  refine write_within _ ?_ (write_within _ ?_ (write_within _ ?_ (write_within _ ?_ h))) <;> (unfold cellByte; omega)

theorem writeCells_within {m : Memory} {a n : Nat} (vs : List Word) (ha : a + vs.length ≤ n) (h : m.within n) :
    (m.writeCells a vs).within n := by
  induction vs generalizing m a with
  | nil => exact h
  | cons v rest ih =>
    simp only [List.length_cons] at ha
    exact ih (by omega) (writeCell_within v (by omega) h)

/-- Two canonical memories that read alike are the same list. -/
theorem eq_of_read_eq {m n : Memory} (hm : m.wf) (hn : n.wf) (h : ∀ a, m.read a = n.read a) : m = n := by
  have below : ∀ (l : Memory) (b : Nat), (∀ x ∈ l, b < x.1) → l.read b = Memory.unlisted := by
    intro l
    induction l with
    | nil => intros; rfl
    | cons x rest ih =>
      intro b hb
      have hne : x.1 ≠ b := by have := hb x (by simp); omega
      show (if x.1 = b then x.2 else Memory.read rest b) = _
      rw [if_neg hne]; exact ih b (fun y hy => hb y (by simp [hy]))
  induction m generalizing n with
  | nil =>
    cases n with
    | nil => rfl
    | cons y ys =>
      exfalso
      have := h y.1
      have hy : Memory.read (y :: ys) y.1 = y.2 := by show (if y.1 = y.1 then y.2 else _) = _; simp
      rw [hy] at this
      exact hn.2 y (by simp) this.symm
  | cons x xs ih =>
    cases n with
    | nil =>
      exfalso
      have := h x.1
      have hx : Memory.read (x :: xs) x.1 = x.2 := by show (if x.1 = x.1 then x.2 else _) = _; simp
      rw [hx] at this
      exact hm.2 x (by simp) this
    | cons y ys =>
      have hx : Memory.read (x :: xs) x.1 = x.2 := by show (if x.1 = x.1 then x.2 else _) = _; simp
      have hy : Memory.read (y :: ys) y.1 = y.2 := by show (if y.1 = y.1 then y.2 else _) = _; simp
      have hpx := List.pairwise_cons.mp hm.1
      have hpy := List.pairwise_cons.mp hn.1
      have hxy : x.1 = y.1 := by
        rcases Nat.lt_trichotomy x.1 y.1 with hlt | heq | hgt
        · exfalso
          refine hm.2 x (by simp) ?_
          rw [← hx, h]
          refine below _ _ (fun w hw => ?_)
          rcases List.mem_cons.mp hw with rfl | hw
          · exact hlt
          · exact Nat.lt_trans hlt (hpy.1 w hw)
        · exact heq
        · exfalso
          refine hn.2 y (by simp) ?_
          rw [← hy, ← h]
          refine below _ _ (fun w hw => ?_)
          rcases List.mem_cons.mp hw with rfl | hw
          · exact hgt
          · exact Nat.lt_trans hgt (hpx.1 w hw)
      have hv : x.2 = y.2 := by rw [← hx, ← hy, h, hxy]
      have hxy' : x = y := Prod.ext hxy hv
      subst hxy'
      congr 1
      refine ih ⟨hpx.2, fun w hw => hm.2 w (by simp [hw])⟩ ⟨hpy.2, fun w hw => hn.2 w (by simp [hw])⟩ (fun a => ?_)
      by_cases ha : x.1 = a
      · subst ha; rw [below xs _ hpx.1, below ys _ hpy.1]
      · have := h a
        have e1 : Memory.read (x :: xs) a = Memory.read xs a := by show (if x.1 = a then x.2 else _) = _; simp [ha]
        have e2 : Memory.read (x :: ys) a = Memory.read ys a := by show (if x.1 = a then x.2 else _) = _; simp [ha]
        rw [← e1, ← e2]; exact h a

end Sys2Proof.Machine
end

