-- ==== Sys2Proof/Laws/State.lean ====
section
/-! SUPPORT. One lemma for each field and each named update of State, so that no later proof unfolds a record update. -/

namespace Sys2Proof.Machine

/-! Writing a register. -/

@[simp] theorem readReg_writeReg_self (s : State) (r : Reg) (v : Word) : (s.writeReg r v).readReg r = v := by
  cases r <;> rfl

theorem readReg_writeReg_ne (s : State) {r q : Reg} (v : Word) (h : q ≠ r) :
    (s.writeReg r v).readReg q = s.readReg q := by
  cases r <;> cases q <;> first | rfl | exact absurd rfl h

theorem readReg_writeReg (s : State) (r q : Reg) (v : Word) :
    (s.writeReg r v).readReg q = if q = r then v else s.readReg q := by
  by_cases h : q = r
  · subst h; simp
  · simp [h, readReg_writeReg_ne s v h]

@[simp] theorem writeReg_pc (s : State) (r : Reg) (v : Word) : (s.writeReg r v).pc = s.pc := by cases r <;> rfl
@[simp] theorem writeReg_z (s : State) (r : Reg) (v : Word) : (s.writeReg r v).z = s.z := by cases r <;> rfl
@[simp] theorem writeReg_c (s : State) (r : Reg) (v : Word) : (s.writeReg r v).c = s.c := by cases r <;> rfl
@[simp] theorem writeReg_running (s : State) (r : Reg) (v : Word) : (s.writeReg r v).running = s.running := by cases r <;> rfl
@[simp] theorem writeReg_capacity (s : State) (r : Reg) (v : Word) : (s.writeReg r v).capacity = s.capacity := by cases r <;> rfl
@[simp] theorem writeReg_mem (s : State) (r : Reg) (v : Word) : (s.writeReg r v).mem = s.mem := by cases r <;> rfl
@[simp] theorem writeReg_events (s : State) (r : Reg) (v : Word) : (s.writeReg r v).events = s.events := by cases r <;> rfl

/-! Writing pc. -/

@[simp] theorem setPc_readReg (s : State) (t : Word) (q : Reg) : (s.setPc t).readReg q = s.readReg q := by cases q <;> rfl
@[simp] theorem setPc_pc (s : State) (t : Word) : (s.setPc t).pc = t := rfl
@[simp] theorem setPc_z (s : State) (t : Word) : (s.setPc t).z = s.z := rfl
@[simp] theorem setPc_c (s : State) (t : Word) : (s.setPc t).c = s.c := rfl
@[simp] theorem setPc_running (s : State) (t : Word) : (s.setPc t).running = s.running := rfl
@[simp] theorem setPc_capacity (s : State) (t : Word) : (s.setPc t).capacity = s.capacity := rfl
@[simp] theorem setPc_mem (s : State) (t : Word) : (s.setPc t).mem = s.mem := rfl
@[simp] theorem setPc_events (s : State) (t : Word) : (s.setPc t).events = s.events := rfl

/-! The width advance. -/

@[simp] theorem advance_readReg (s : State) (op : Opcode) (q : Reg) : (s.advance op).readReg q = s.readReg q := by cases q <;> rfl
@[simp] theorem advance_pc (s : State) (op : Opcode) : (s.advance op).pc = s.pc + BitVec.ofNat 32 op.width := rfl
@[simp] theorem advance_z (s : State) (op : Opcode) : (s.advance op).z = s.z := rfl
@[simp] theorem advance_c (s : State) (op : Opcode) : (s.advance op).c = s.c := rfl
@[simp] theorem advance_running (s : State) (op : Opcode) : (s.advance op).running = s.running := rfl
@[simp] theorem advance_capacity (s : State) (op : Opcode) : (s.advance op).capacity = s.capacity := rfl
@[simp] theorem advance_mem (s : State) (op : Opcode) : (s.advance op).mem = s.mem := rfl
@[simp] theorem advance_events (s : State) (op : Opcode) : (s.advance op).events = s.events := rfl

/-! Halting. -/

@[simp] theorem halt_readReg (s : State) (q : Reg) : (s.halt).readReg q = s.readReg q := by cases q <;> rfl
@[simp] theorem halt_pc (s : State) : (s.halt).pc = s.pc := rfl
@[simp] theorem halt_z (s : State) : (s.halt).z = s.z := rfl
@[simp] theorem halt_c (s : State) : (s.halt).c = s.c := rfl
@[simp] theorem halt_running (s : State) : (s.halt).running = false := rfl
@[simp] theorem halt_capacity (s : State) : (s.halt).capacity = s.capacity := rfl
@[simp] theorem halt_mem (s : State) : (s.halt).mem = s.mem := rfl
@[simp] theorem halt_events (s : State) : (s.halt).events = s.events := rfl

/-! Emitting an event. -/

@[simp] theorem emit_readReg (s : State) (e : Event) (q : Reg) : (s.emit e).readReg q = s.readReg q := by cases q <;> rfl
@[simp] theorem emit_pc (s : State) (e : Event) : (s.emit e).pc = s.pc := rfl
@[simp] theorem emit_z (s : State) (e : Event) : (s.emit e).z = s.z := rfl
@[simp] theorem emit_c (s : State) (e : Event) : (s.emit e).c = s.c := rfl
@[simp] theorem emit_running (s : State) (e : Event) : (s.emit e).running = s.running := rfl
@[simp] theorem emit_capacity (s : State) (e : Event) : (s.emit e).capacity = s.capacity := rfl
@[simp] theorem emit_mem (s : State) (e : Event) : (s.emit e).mem = s.mem := rfl
@[simp] theorem emit_events (s : State) (e : Event) : (s.emit e).events = s.events ++ [e] := rfl

/-! Updating the flags. -/

@[simp] theorem updateFlags_readReg (s : State) (r : Word) (q : Reg) : (s.updateFlags r).readReg q = s.readReg q := by cases q <;> rfl
@[simp] theorem updateFlags_pc (s : State) (r : Word) : (s.updateFlags r).pc = s.pc := rfl
@[simp] theorem updateFlags_z (s : State) (r : Word) : (s.updateFlags r).z = zeroFlag r := rfl
@[simp] theorem updateFlags_c (s : State) (r : Word) : (s.updateFlags r).c = carryFlag r := rfl
@[simp] theorem updateFlags_running (s : State) (r : Word) : (s.updateFlags r).running = s.running := rfl
@[simp] theorem updateFlags_capacity (s : State) (r : Word) : (s.updateFlags r).capacity = s.capacity := rfl
@[simp] theorem updateFlags_mem (s : State) (r : Word) : (s.updateFlags r).mem = s.mem := rfl
@[simp] theorem updateFlags_events (s : State) (r : Word) : (s.updateFlags r).events = s.events := rfl

/-! Writing a memory cell. -/

theorem memWrite_inRange (s : State) {a : Word} (v : Word) (h : s.inRange a = true) :
    s.memWrite a v = { s with mem := s.mem.writeCell (cellIndex a) v } := by simp [State.memWrite, h]

theorem memWrite_outOfRange (s : State) {a : Word} (v : Word) (h : s.inRange a = false) : s.memWrite a v = s := by
  simp [State.memWrite, h]

@[simp] theorem memWrite_readReg (s : State) (a v : Word) (q : Reg) : (s.memWrite a v).readReg q = s.readReg q := by
  unfold State.memWrite; split <;> cases q <;> rfl
@[simp] theorem memWrite_pc (s : State) (a v : Word) : (s.memWrite a v).pc = s.pc := by unfold State.memWrite; split <;> rfl
@[simp] theorem memWrite_z (s : State) (a v : Word) : (s.memWrite a v).z = s.z := by unfold State.memWrite; split <;> rfl
@[simp] theorem memWrite_c (s : State) (a v : Word) : (s.memWrite a v).c = s.c := by unfold State.memWrite; split <;> rfl
@[simp] theorem memWrite_running (s : State) (a v : Word) : (s.memWrite a v).running = s.running := by unfold State.memWrite; split <;> rfl
@[simp] theorem memWrite_capacity (s : State) (a v : Word) : (s.memWrite a v).capacity = s.capacity := by unfold State.memWrite; split <;> rfl
@[simp] theorem memWrite_events (s : State) (a v : Word) : (s.memWrite a v).events = s.events := by unfold State.memWrite; split <;> rfl
@[simp] theorem memWrite_mem (s : State) (a v : Word) :
    (s.memWrite a v).mem = if s.inRange a then s.mem.writeCell (cellIndex a) v else s.mem := by
  unfold State.memWrite; split <;> rfl

/-! Writing an arithmetic result. -/

@[simp] theorem writeResult_readReg (s : State) (op : Opcode) (r1 v : Word) (q : Reg) :
    (s.writeResult op r1 v).readReg q = if q = rc r1 then v else s.readReg q := by
  simp [State.writeResult, readReg_writeReg]
@[simp] theorem writeResult_pc (s : State) (op : Opcode) (r1 v : Word) : (s.writeResult op r1 v).pc = s.pc + BitVec.ofNat 32 op.width := by simp [State.writeResult]
@[simp] theorem writeResult_z (s : State) (op : Opcode) (r1 v : Word) : (s.writeResult op r1 v).z = zeroFlag v := by simp [State.writeResult]
@[simp] theorem writeResult_c (s : State) (op : Opcode) (r1 v : Word) : (s.writeResult op r1 v).c = carryFlag v := by simp [State.writeResult]
@[simp] theorem writeResult_running (s : State) (op : Opcode) (r1 v : Word) : (s.writeResult op r1 v).running = s.running := by simp [State.writeResult]
@[simp] theorem writeResult_capacity (s : State) (op : Opcode) (r1 v : Word) : (s.writeResult op r1 v).capacity = s.capacity := by simp [State.writeResult]
@[simp] theorem writeResult_mem (s : State) (op : Opcode) (r1 v : Word) : (s.writeResult op r1 v).mem = s.mem := by simp [State.writeResult]
@[simp] theorem writeResult_events (s : State) (op : Opcode) (r1 v : Word) : (s.writeResult op r1 v).events = s.events := by simp [State.writeResult]

/-! The two flag values. -/

theorem zeroFlag_iff (r : Word) : zeroFlag r = true ↔ r = 0 := by simp [zeroFlag]

theorem carryFlag_iff (r : Word) : carryFlag r = true ↔ 65535 < r.toInt ∨ r.toInt < -32768 := by
  simp only [carryFlag, carryHi, carryLo, Bool.or_eq_true, decide_eq_true_eq]

/-! Range tests and register operands see only what they read. -/

theorem inRange_congr {s t : State} (h : t.capacity = s.capacity) (a : Word) : t.inRange a = s.inRange a := by
  simp [State.inRange, h]

theorem memRead_congr {s t : State} (h : t.mem = s.mem) (a : Word) : t.memRead a = s.memRead a := by
  simp [State.memRead, h]

theorem operand_congr {s t : State} (h : ∀ q, t.readReg q = s.readReg q) (r : Word) : t.operand r = s.operand r := h _

theorem inRange_iff (s : State) (a : Word) :
    s.inRange a = true ↔ 0 ≤ a.toInt ∧ a.toInt < (s.capacity : Int) := by simp [State.inRange]

theorem inRange_eq_false_iff (s : State) (a : Word) :
    s.inRange a = false ↔ a.toInt < 0 ∨ (s.capacity : Int) ≤ a.toInt := by
  rw [Bool.eq_false_iff, Ne, inRange_iff]; omega

/-! Exact integers and words. -/

theorem toInt_wrap {v : Int} (h : minValue ≤ v ∧ v ≤ maxValue) : (wrap v).toInt = v := by
  simp only [minValue, maxValue] at h
  rw [wrap, BitVec.toInt_ofInt]
  apply Int.bmod_eq_of_le <;> omega

@[simp] theorem wrap_toInt (w : Word) : wrap w.toInt = w := BitVec.ofInt_toInt

end Sys2Proof.Machine
end

