-- ==== Sys2Proof/Laws/Exec.lean ====
section
/-! SUPPORT. What each meaning answers, and what any of them can do to each field of the state. -/

namespace Sys2Proof.Machine

@[simp] theorem exec_load (r imm : Word) (s : State) :
    exec (.load r imm) s = .next ((s.writeReg (rc r) imm).advance .load) := rfl

@[simp] theorem exec_store (r addr : Word) (s : State) :
    exec (.store r addr) s = .next ((s.memWrite addr (s.operand r)).advance .store) := rfl

@[simp] theorem exec_add (r1 r2 : Word) (s : State) :
    exec (.add r1 r2) s = .next (s.writeResult .add r1 (sumWord (s.operand r1) (s.operand r2))) := rfl

@[simp] theorem exec_sub (r1 r2 : Word) (s : State) :
    exec (.sub r1 r2) s = .next (s.writeResult .sub r1 (differenceWord (s.operand r1) (s.operand r2))) := rfl

@[simp] theorem exec_mul (r1 r2 : Word) (s : State) :
    exec (.mul r1 r2) s = .next (s.writeResult .mul r1 (productWord (s.operand r1) (s.operand r2))) := rfl

theorem exec_div_zero (r1 : Word) {r2 : Word} {s : State} (h : s.operand r2 = 0) :
    exec (.div r1 r2) s = .next ((s.halt.emit .divByZero).advance .div) := if_pos h

theorem exec_div_nonzero (r1 : Word) {r2 : Word} {s : State} (h : s.operand r2 ≠ 0) :
    exec (.div r1 r2) s = .next (s.writeResult .div r1 (quotientWord (s.operand r1) (s.operand r2))) := if_neg h

@[simp] theorem exec_jmp (addr : Word) (s : State) : exec (.jmp addr) s = .next (s.setPc addr) := rfl

theorem exec_jeq (r1 r2 addr : Word) (s : State) :
    exec (.jeq r1 r2 addr) s =
      .next (if s.operand r1 = s.operand r2 then s.setPc addr else s.advance .jeq) :=
  (apply_ite Host.Outcome.next _ _ _).symm

theorem exec_jne (r1 r2 addr : Word) (s : State) :
    exec (.jne r1 r2 addr) s =
      .next (if s.operand r1 = s.operand r2 then s.advance .jne else s.setPc addr) :=
  (apply_ite Host.Outcome.next _ _ _).symm

@[simp] theorem exec_cmp (r1 r2 : Word) (s : State) :
    exec (.cmp r1 r2) s =
      .next ((s.updateFlags (differenceWord (s.operand r1) (s.operand r2))).advance .cmp) := rfl

@[simp] theorem exec_print (r : Word) (s : State) :
    exec (.print r) s = .next ((s.emit (.print (s.operand r))).advance .print) := rfl

@[simp] theorem exec_halt (s : State) : exec .halt s = .next (s.halt.advance .halt) := rfl

/-- Everything a meaning can do: nine shapes of next state. -/
theorem exec_cases {i : Instr} {s : State} {o : Host.Outcome State Fault Refusal} (h : exec i s = o) :
    (∃ r imm, i = .load r imm ∧ o = .next ((s.writeReg (rc r) imm).advance .load)) ∨
    (∃ r addr, i = .store r addr ∧ o = .next ((s.memWrite addr (s.operand r)).advance .store)) ∨
    (∃ r1 v, i.opcode ∈ [Opcode.add, .sub, .mul, .div] ∧ i.operands.head? = some r1 ∧
      (∀ d r2, i = .div d r2 → s.operand r2 ≠ 0) ∧ o = .next (s.writeResult i.opcode r1 v)) ∨
    (∃ r1 r2, i = .div r1 r2 ∧ s.operand r2 = 0 ∧ o = .next ((s.halt.emit .divByZero).advance .div)) ∨
    (∃ addr, i.opcode ∈ [Opcode.jmp, .jeq, .jne] ∧ i.operands.getLast? = some addr ∧ o = .next (s.setPc addr)) ∨
    (i.opcode ∈ [Opcode.jeq, .jne] ∧ o = .next (s.advance i.opcode)) ∨
    (∃ r1 r2, i = .cmp r1 r2 ∧
      o = .next ((s.updateFlags (differenceWord (s.operand r1) (s.operand r2))).advance .cmp)) ∨
    (∃ r, i = .print r ∧ o = .next ((s.emit (.print (s.operand r))).advance .print)) ∨
    (i = .halt ∧ o = .next (s.halt.advance .halt)) := by
  subst h
  cases i with
  | load r imm => exact .inl ⟨r, imm, rfl, rfl⟩
  | store r addr => exact .inr (.inl ⟨r, addr, rfl, rfl⟩)
  | add r1 r2 => exact .inr (.inr (.inl ⟨r1, _, by simp [Instr.opcode], rfl, by simp, rfl⟩))
  | sub r1 r2 => exact .inr (.inr (.inl ⟨r1, _, by simp [Instr.opcode], rfl, by simp, rfl⟩))
  | mul r1 r2 => exact .inr (.inr (.inl ⟨r1, _, by simp [Instr.opcode], rfl, by simp, rfl⟩))
  | div r1 r2 =>
    by_cases h : s.operand r2 = 0
    · exact .inr (.inr (.inr (.inl ⟨r1, r2, rfl, h, exec_div_zero r1 h⟩)))
    · refine .inr (.inr (.inl ⟨r1, _, by simp [Instr.opcode], rfl, ?_, exec_div_nonzero r1 h⟩))
      rintro d r2' heq
      cases heq
      exact h
  | jmp addr => exact .inr (.inr (.inr (.inr (.inl ⟨addr, by simp [Instr.opcode], rfl, rfl⟩))))
  | jeq r1 r2 addr =>
    by_cases h : s.operand r1 = s.operand r2
    · exact .inr (.inr (.inr (.inr (.inl ⟨addr, by simp [Instr.opcode], rfl, by simp [exec_jeq, h]⟩))))
    · exact .inr (.inr (.inr (.inr (.inr (.inl ⟨by simp [Instr.opcode], by simp [exec_jeq, h, Instr.opcode]⟩)))))
  | jne r1 r2 addr =>
    by_cases h : s.operand r1 = s.operand r2
    · exact .inr (.inr (.inr (.inr (.inr (.inl ⟨by simp [Instr.opcode], by simp [exec_jne, h, Instr.opcode]⟩)))))
    · exact .inr (.inr (.inr (.inr (.inl ⟨addr, by simp [Instr.opcode], rfl, by simp [exec_jne, h]⟩))))
  | cmp r1 r2 => exact .inr (.inr (.inr (.inr (.inr (.inr (.inl ⟨r1, r2, rfl, rfl⟩))))))
  | print r => exact .inr (.inr (.inr (.inr (.inr (.inr (.inr (.inl ⟨r, rfl, rfl⟩)))))))
  | halt => exact .inr (.inr (.inr (.inr (.inr (.inr (.inr (.inr ⟨rfl, rfl⟩)))))))

/-- Every meaning answers a next state. -/
theorem exec_next (i : Instr) (s : State) : ∃ t, exec i s = .next t := by
  rcases exec_cases (rfl : exec i s = exec i s) with
    ⟨_, _, _, h⟩ | ⟨_, _, _, h⟩ | ⟨_, _, _, _, _, h⟩ | ⟨_, _, _, _, h⟩ | ⟨_, _, _, h⟩ | ⟨_, h⟩ | ⟨_, _, _, h⟩ | ⟨_, _, h⟩ | ⟨_, h⟩
  all_goals exact ⟨_, h⟩

theorem exec_capacity {i : Instr} {s t : State} (h : exec i s = .next t) : t.capacity = s.capacity := by
  rcases exec_cases h with
    ⟨_, _, _, h⟩ | ⟨_, _, _, h⟩ | ⟨_, _, _, _, _, h⟩ | ⟨_, _, _, _, h⟩ | ⟨_, _, _, h⟩ | ⟨_, h⟩ | ⟨_, _, _, h⟩ | ⟨_, _, h⟩ | ⟨_, h⟩
  all_goals (cases h; simp)

/-- Only STORE writes memory, and only an in-range cell. -/
theorem exec_mem {i : Instr} {s t : State} (h : exec i s = .next t) :
    t.mem = s.mem ∨ ∃ r addr, i = .store r addr ∧ s.inRange addr = true ∧
      t.mem = s.mem.writeCell (cellIndex addr) (s.operand r) := by
  rcases exec_cases h with
    ⟨_, _, _, h⟩ | ⟨r, addr, hi, h⟩ | ⟨_, _, _, _, _, h⟩ | ⟨_, _, _, _, h⟩ | ⟨_, _, _, h⟩ | ⟨_, h⟩ | ⟨_, _, _, h⟩ | ⟨_, _, h⟩ | ⟨_, h⟩
  case inr.inl =>
    cases h
    by_cases ha : s.inRange addr = true
    · exact .inr ⟨r, addr, hi, ha, by simp [ha]⟩
    · exact .inl (by simp [ha])
  all_goals (cases h; left; simp)

/-- No meaning sets the run state. -/
theorem exec_running {i : Instr} {s t : State} (h : exec i s = .next t) (ht : t.running = true) : s.running = true := by
  rcases exec_cases h with
    ⟨_, _, _, h⟩ | ⟨_, _, _, h⟩ | ⟨_, _, _, _, _, h⟩ | ⟨_, _, _, _, h⟩ | ⟨_, _, _, h⟩ | ⟨_, h⟩ | ⟨_, _, _, h⟩ | ⟨_, _, h⟩ | ⟨_, h⟩
  all_goals (cases h; simp at ht <;> exact ht)

end Sys2Proof.Machine
end

