-- ==== Sys2Proof/Laws/Step.lean ====
section
/-! SUPPORT. What the operand fetch, the fetch and the step can answer. -/

namespace Sys2Proof.Machine

/-! The operand fetch. -/

theorem opRead_inRange (policy : Config.OorOperandPolicy) {s : State} {a : Word} (h : s.inRange a = true) :
    opRead policy s a = some (s.memRead a) := by simp [opRead, h]

theorem add_ofNat_succ (a : Word) (k : Nat) : a + BitVec.ofNat 32 (k + 1) = a + 1 + BitVec.ofNat 32 k := by
  rw [BitVec.add_assoc]
  congr 1
  apply BitVec.eq_of_toNat_eq
  simp [Nat.add_comm]

/-- Under the spec's policy an operand reads like the memory accessor. -/
@[simp] theorem opRead_zero (s : State) (a : Word) : opRead .zero s a = some (readMemory s a) := by
  unfold opRead readMemory; split <;> rfl

/-- Under the spec's policy the operand fetch always answers, cell by cell. -/
theorem fetchOperands_zero (s : State) (a : Word) (n : Nat) :
    fetchOperands .zero s a n = some ((List.range n).map (fun k => readMemory s (a + BitVec.ofNat 32 k))) := by
  induction n generalizing a with
  | zero => rfl
  | succ n ih =>
    simp only [fetchOperands, opRead_zero, ih, Option.map_some, List.range_succ_eq_map, List.map_cons, List.map_map]
    congr 2
    · simp
    · apply List.map_congr_left
      intro k _
      simp only [Function.comp_apply]
      rw [add_ofNat_succ]

/-- When every operand cell is in range, the policy does not matter. -/
theorem fetchOperands_inRange (policy : Config.OorOperandPolicy) (s : State) (a : Word) (n : Nat)
    (h : ∀ k, k < n → s.inRange (a + BitVec.ofNat 32 k) = true) :
    fetchOperands policy s a n = fetchOperands .zero s a n := by
  induction n generalizing a with
  | zero => rfl
  | succ n ih =>
    have h0 : s.inRange a = true := by simpa using h 0 (by omega)
    have hs : ∀ k, k < n → s.inRange (a + 1 + BitVec.ofNat 32 k) = true := by
      intro k hk
      have := h (k + 1) (by omega)
      rwa [add_ofNat_succ] at this
    simp only [fetchOperands, opRead_inRange _ h0, ih _ hs]

/-- Under HALT one operand cell outside memory abandons the instruction. -/
theorem fetchOperands_halt_none {s : State} {a : Word} {n : Nat}
    (h : ∃ k, k < n ∧ s.inRange (a + BitVec.ofNat 32 k) = false) : fetchOperands .halt s a n = none := by
  induction n generalizing a with
  | zero => obtain ⟨k, hk, _⟩ := h; omega
  | succ n ih =>
    obtain ⟨k, hk, hr⟩ := h
    unfold fetchOperands
    cases k with
    | zero => simp at hr; simp [opRead, hr]
    | succ k =>
      rw [add_ofNat_succ] at hr
      rw [ih ⟨k, by omega, hr⟩]
      split <;> simp

/-! The fetch. -/

theorem fetch_unknown (policy : Config.OorOperandPolicy) {s : State} (h : decodeOpcode (s.memRead s.pc) = none) :
    fetch policy s = .unknown := by simp [fetch, h]

theorem fetch_zero {s : State} {op : Opcode} (h : decodeOpcode (s.memRead s.pc) = some op) :
    fetch .zero s =
      .instr (assemble op ((List.range op.operandCount).map (fun k => readMemory s (s.pc + 1 + BitVec.ofNat 32 k)))) := by
  simp [fetch, h, fetchOperands_zero]

theorem fetch_zero_ne_abandoned (s : State) : fetch .zero s ≠ .abandoned := by
  unfold fetch
  split
  · simp
  · simp [fetchOperands_zero]

theorem fetch_opcode {policy : Config.OorOperandPolicy} {s : State} {i : Instr} (h : fetch policy s = .instr i) :
    decodeOpcode (s.memRead s.pc) = some i.opcode := by
  unfold fetch at h
  split at h
  · simp at h
  · split at h
    · simp at h
    · cases h; simpa using ‹decodeOpcode _ = _›

/-- When every operand cell of the opcode at pc is in range, the policy does not matter. -/
theorem fetch_policy {policy : Config.OorOperandPolicy} {s : State}
    (h : ∀ op, decodeOpcode (s.memRead s.pc) = some op →
      ∀ k, 1 ≤ k → k < op.width → s.inRange (s.pc + BitVec.ofNat 32 k) = true) :
    fetch policy s = fetch .zero s := by
  unfold fetch
  split
  · rfl
  · rename_i op hop
    rw [fetchOperands_inRange policy]
    intro k hk
    have := h op hop (k + 1) (by omega) (by rw [width_eq]; omega)
    rwa [add_ofNat_succ] at this

theorem fetches_iff (s : State) : s.fetches = true ↔ s.running = true ∧ s.inRange s.pc = true := by
  simp [State.fetches]

/-! The step. -/

theorem stepUnder_not_fetches (policy : Config.OorOperandPolicy) {s : State} (h : s.fetches = false) :
    stepUnder policy s = .next s.halt := by simp [stepUnder, h]

theorem stepUnder_unknown {policy : Config.OorOperandPolicy} {s : State} (h : s.fetches = true)
    (hf : fetch policy s = .unknown) : stepUnder policy s = .next s.halt := by simp [stepUnder, h, hf]

theorem stepUnder_abandoned {policy : Config.OorOperandPolicy} {s : State} (h : s.fetches = true)
    (hf : fetch policy s = .abandoned) : stepUnder policy s = .next s.halt := by simp [stepUnder, h, hf]

theorem stepUnder_instr {policy : Config.OorOperandPolicy} {s : State} {i : Instr} (h : s.fetches = true)
    (hf : fetch policy s = .instr i) : stepUnder policy s = exec i s := by simp [stepUnder, h, hf]

/-- Everything a step can do: halt in place, or run the fetched instruction. -/
theorem stepUnder_cases (policy : Config.OorOperandPolicy) (s : State) :
    (stepUnder policy s = .next s.halt ∧ (s.fetches = false ∨ fetch policy s = .unknown ∨ fetch policy s = .abandoned)) ∨
    (∃ i, s.fetches = true ∧ fetch policy s = .instr i ∧ stepUnder policy s = exec i s) := by
  cases hs : s.fetches
  · exact .inl ⟨stepUnder_not_fetches policy hs, .inl rfl⟩
  · cases hf : fetch policy s with
    | unknown => exact .inl ⟨stepUnder_unknown hs hf, .inr (.inl rfl)⟩
    | abandoned => exact .inl ⟨stepUnder_abandoned hs hf, .inr (.inr rfl)⟩
    | instr i => exact .inr ⟨i, rfl, rfl, stepUnder_instr hs hf⟩

/-- The same of `step`, in the terms of `currentInstr`. -/
theorem step_cases (s : State) :
    (currentInstr s = none ∧ step s = .next s.halt) ∨ (∃ i, currentInstr s = some i ∧ step s = exec i s) := by
  rcases stepUnder_cases operandPolicy s with ⟨h, hs | hf | hf⟩ | ⟨i, hs, hf, h⟩
  · exact .inl ⟨by simp [currentInstr, hs], h⟩
  · exact .inl ⟨by simp [currentInstr, hf], h⟩
  · exact .inl ⟨by simp [currentInstr, hf], h⟩
  · exact .inr ⟨i, by simp [currentInstr, hs, hf], h⟩

theorem step_of_currentInstr {s : State} {i : Instr} (h : currentInstr s = some i) : step s = exec i s := by
  rcases step_cases s with ⟨h', _⟩ | ⟨j, h', hj⟩
  · simp [h] at h'
  · rw [h] at h'; cases h'; exact hj

theorem currentInstr_running {s : State} {i : Instr} (h : currentInstr s = some i) :
    s.running = true ∧ s.inRange s.pc = true := by
  unfold currentInstr at h
  split at h
  · simpa [State.fetches] using ‹s.fetches = true›
  · simp at h

theorem halt_eq_self {s : State} (h : s.running = false) : s.halt = s := by
  cases s; simp_all [State.halt]

end Sys2Proof.Machine
end

