-- ==== Sys2Proof/Laws/HostOps.lean ====
section
/-! SUPPORT. LOAD_PROGRAM, construction and the bound of RUN: their small lemmas. -/

namespace Sys2Proof.Machine

@[simp] theorem loadProgram_readReg (s : State) (p : List Word) (q : Reg) : (loadProgram s p).readReg q = s.readReg q := by
  cases q <;> rfl
@[simp] theorem loadProgram_pc (s : State) (p : List Word) : (loadProgram s p).pc = 0 := rfl
@[simp] theorem loadProgram_running (s : State) (p : List Word) : (loadProgram s p).running = true := rfl
@[simp] theorem loadProgram_z (s : State) (p : List Word) : (loadProgram s p).z = s.z := rfl
@[simp] theorem loadProgram_c (s : State) (p : List Word) : (loadProgram s p).c = s.c := rfl
@[simp] theorem loadProgram_capacity (s : State) (p : List Word) : (loadProgram s p).capacity = s.capacity := rfl
@[simp] theorem loadProgram_events (s : State) (p : List Word) : (loadProgram s p).events = s.events := rfl
@[simp] theorem loadProgram_mem (s : State) (p : List Word) :
    (loadProgram s p).mem = s.mem.writeCells 0 (p.take s.capacity) := rfl

/-- A cell after LOAD_PROGRAM: the program's inside the copied prefix, as before outside. -/
theorem loadProgram_readCell (s : State) (p : List Word) (a : Nat) :
    (loadProgram s p).mem.readCell a = if a < min p.length s.capacity then p.getD a 0 else s.mem.readCell a := by
  rw [loadProgram_mem, readCell_writeCells]
  simp only [Nat.zero_le, true_and, Nat.zero_add, List.length_take, Nat.sub_zero, Nat.min_comm]
  split
  · rename_i h
    simp only [List.getD_eq_getElem?_getD, List.getElem?_take]
    rw [if_pos (by omega)]
  · rfl

theorem placeCells_wf {s : State} (cells : List Word) (h : s.mem.wf) : (s.placeCells cells).mem.wf :=
  writeCells_wf _ _ h

theorem loadProgram_wf {s : State} (p : List Word) (h : s.mem.wf) : (loadProgram s p).mem.wf :=
  writeCells_wf _ _ h

theorem loadProgram_within {s : State} (p : List Word) (h : s.mem.within s.capacity) :
    (loadProgram s p).mem.within s.capacity :=
  writeCells_within _ (by simp) h

theorem memWrite_wf {s : State} (a v : Word) (h : s.mem.wf) : (s.memWrite a v).mem.wf := by
  rw [memWrite_mem]; split
  · exact writeCell_wf _ _ h
  · exact h

theorem toInt_eq_toNat_of_nonneg {a : Word} (h : 0 ≤ a.toInt) : a.toInt = (a.toNat : Int) := by
  rw [BitVec.toInt_eq_toNat_cond] at *
  split
  · rfl
  · rename_i hc
    rw [if_neg hc] at h
    have := a.isLt
    omega

/-- An in-range address names one of the cells. -/
theorem cellIndex_lt {s : State} {a : Word} (h : s.inRange a = true) : cellIndex a < s.capacity := by
  rw [inRange_iff] at h
  have := toInt_eq_toNat_of_nonneg h.1
  unfold cellIndex
  omega

theorem cellIndex_ne {a b : Word} (h : a ≠ b) : cellIndex a ≠ cellIndex b :=
  fun he => h (BitVec.eq_of_toNat_eq he)

theorem memWrite_within {s : State} (a v : Word) (h : s.mem.within s.capacity) :
    (s.memWrite a v).mem.within s.capacity := by
  rw [memWrite_mem]; split
  · exact writeCell_within _ (cellIndex_lt ‹_›) h
  · exact h

theorem runFuel_halted {s : State} (h : s.running = false) (n : Nat) : runFuel n s = some s := by
  cases n <;> simp [runFuel, h]

theorem runFuel_succ {s t : State} (h : s.running = true) (hs : step s = .next t) (n : Nat) :
    runFuel (n + 1) s = runFuel n t := by simp [runFuel, h, hs]

end Sys2Proof.Machine
end

