-- ==== Sys2Proof/Laws/PerInstr.lean ====
section
/-! SUPPORT. The statements made for every instruction as syntax, one lemma for each constructor. Family EncodingShape: an instruction's cells are its
opcode cell, which the opcode map reads back, and exactly the operand cells of its format; and it is well-formed (R71, R74, R80). -/

namespace Sys2Proof.Laws.EncodingShape

/-- The shape of an instruction's cells. -/
def Statement (i : Instr) : Prop :=
  i.wellFormed = true ∧ (encode i).head? = some i.opcode.code ∧ decodeOpcode i.opcode.code = some i.opcode ∧
    (encode i).length = i.opcode.width ∧ isInstructionRun (encode i) = true

theorem load (r imm : Word) : Statement (.load r imm) := ⟨rfl, rfl, rfl, rfl, rfl⟩
theorem store (r addr : Word) : Statement (.store r addr) := ⟨rfl, rfl, rfl, rfl, rfl⟩
theorem add (r1 r2 : Word) : Statement (.add r1 r2) := ⟨rfl, rfl, rfl, rfl, rfl⟩
theorem sub (r1 r2 : Word) : Statement (.sub r1 r2) := ⟨rfl, rfl, rfl, rfl, rfl⟩
theorem mul (r1 r2 : Word) : Statement (.mul r1 r2) := ⟨rfl, rfl, rfl, rfl, rfl⟩
theorem div (r1 r2 : Word) : Statement (.div r1 r2) := ⟨rfl, rfl, rfl, rfl, rfl⟩
theorem jmp (addr : Word) : Statement (.jmp addr) := ⟨rfl, rfl, rfl, rfl, rfl⟩
theorem jeq (r1 r2 addr : Word) : Statement (.jeq r1 r2 addr) := ⟨rfl, rfl, rfl, rfl, rfl⟩
theorem jne (r1 r2 addr : Word) : Statement (.jne r1 r2 addr) := ⟨rfl, rfl, rfl, rfl, rfl⟩
theorem cmp (r1 r2 : Word) : Statement (.cmp r1 r2) := ⟨rfl, rfl, rfl, rfl, rfl⟩
theorem print (r : Word) : Statement (.print r) := ⟨rfl, rfl, rfl, rfl, rfl⟩
theorem halt : Statement .halt := ⟨rfl, rfl, rfl, rfl, rfl⟩

end Sys2Proof.Laws.EncodingShape
end

