-- ==== Sys2Proof/Machine/Assembly.lean ====
section
/-! DEFINITION. The example syntax of 30_encoding.md R81, written from an instruction: `MNEMONIC operand, operand, ...`. It has no semantics (D9);
no rule of the machine reads it. -/

namespace Sys2Proof.Machine

/-- The canonical identifiers of R20. -/
def Reg.identifier : Reg → String
  | .ax => "AX"
  | .bx => "BX"
  | .cx => "CX"
  | .dx => "DX"
  | .sp => "SP"

/-- The mnemonic column of R74. -/
def mnemonic : Opcode → String
  | .load => "LOAD"
  | .store => "STORE"
  | .add => "ADD"
  | .sub => "SUB"
  | .mul => "MUL"
  | .div => "DIV"
  | .jmp => "JMP"
  | .jeq => "JEQ"
  | .jne => "JNE"
  | .cmp => "CMP"
  | .print => "PRINT"
  | .halt => "HALT"

/-- An immediate or address: a decimal integer. -/
def decimal (v : Word) : String := toString v.toInt

/-- A register operand: its identifier for codes 0..4, `r<n>` for a raw code outside. -/
def registerOperand (code : Word) : String :=
  if 0 ≤ code.toInt ∧ code.toInt ≤ 4 then (rc code).identifier else "r" ++ decimal code

/-- The operand texts of an instruction, in the order of R72. -/
def operandTexts : Instr → List String
  | .load r imm => [registerOperand r, decimal imm]
  | .store r addr => [registerOperand r, decimal addr]
  | .add r1 r2 => [registerOperand r1, registerOperand r2]
  | .sub r1 r2 => [registerOperand r1, registerOperand r2]
  | .mul r1 r2 => [registerOperand r1, registerOperand r2]
  | .div r1 r2 => [registerOperand r1, registerOperand r2]
  | .jmp addr => [decimal addr]
  | .jeq r1 r2 addr => [registerOperand r1, registerOperand r2, decimal addr]
  | .jne r1 r2 addr => [registerOperand r1, registerOperand r2, decimal addr]
  | .cmp r1 r2 => [registerOperand r1, registerOperand r2]
  | .print r => [registerOperand r]
  | .halt => []

/-- R81: the instruction's text. -/
def assemblyText (i : Instr) : String :=
  match operandTexts i with
  | [] => mnemonic i.opcode
  | texts => mnemonic i.opcode ++ " " ++ String.intercalate ", " texts

end Sys2Proof.Machine
end

