-- ==== Sys2Proof/Tests/Slice0.lean ====
section
/-! SUPPORT. The model's own tests. Expected values are those of spec/95_test_vectors.md (the vector is named), or hand calculation from the cited
rule; the witnesses at the end meet the hypotheses of the statements in Certificates/Slice0/Obligations.lean. -/

namespace Sys2Proof.Tests

open Sys2Proof Sys2Proof.Machine

/-- The state an outcome holds. -/
def stateOf : Host.Outcome State Fault Refusal → Option State
  | .next s => some s
  | .fault _ => none
  | .refused _ => none

/-- A freshly constructed machine with its program loaded, of a given capacity. -/
def machineOf (capacity : Nat) (cells : List Word) : State := loadProgram (State.constructed capacity) cells

/-- The same at the default capacity, with AX and BX set. -/
def machine (cells : List Word) (ax bx : Word) : State := { machineOf 1024 cells with ax := ax, bx := bx }

/-- One step. -/
def after (s : State) : Option State := stateOf (step s)

/-- What an arithmetic step leaves: AX, Z, C, pc. -/
def arithmetic (cells : List Word) (ax bx : Word) : Option (Word × Bool × Bool × Word) :=
  (after (machine cells ax bx)).map (fun t => (t.ax, t.z, t.c, t.pc))

/-! Well-formedness: an ill-formed term for each check. -/

theorem test_capacity_minus_one_refused : capacityAdmitted (-1) = false := by decide
theorem test_capacity_above_max_refused : capacityAdmitted 2147483645 = false := by decide
theorem test_program_above_max_refused : programAdmitted [1, 0, 2147483648] = false := by decide
theorem test_program_below_min_refused : programAdmitted [-2147483649] = false := by decide
theorem test_no_cell_refused : isInstructionRun [] = false := by decide
theorem test_opcode_zero_refused : isInstructionRun [0] = false := by decide
theorem test_opcode_thirteen_refused : isInstructionRun [13] = false := by decide
theorem test_load_without_immediate_refused : isInstructionRun [1, 0] = false := by decide
theorem test_jmp_too_long_refused : isInstructionRun [7, 9, 9] = false := by decide
theorem test_jeq_too_short_refused : isInstructionRun [8, 0, 1] = false := by decide
theorem test_halt_with_operand_refused : isInstructionRun [12, 0] = false := by decide

/-! Decoding: a word of each row written out from the cells of R74, cell k at bits 32k+31..32k. -/

theorem test_decode_load : decodeTableWord 96 0x0000002A_00000000_00000001 = some (.load 0 42) := by decide
theorem test_decode_store : decodeTableWord 96 0x00000064_00000003_00000002 = some (.store 3 100) := by decide
theorem test_decode_add : decodeTableWord 96 0x00000001_00000002_00000003 = some (.add 2 1) := by decide
theorem test_decode_sub : decodeTableWord 96 0x00000002_00000000_00000004 = some (.sub 0 2) := by decide
theorem test_decode_mul : decodeTableWord 96 0x00000000_00000001_00000005 = some (.mul 1 0) := by decide
theorem test_decode_div : decodeTableWord 96 0x00000001_00000000_00000006 = some (.div 0 1) := by decide
theorem test_decode_jmp : decodeTableWord 64 0xFFFFFFFD_00000007 = some (.jmp (-3)) := by decide
theorem test_decode_jeq : decodeTableWord 128 0x00000014_00000001_00000000_00000008 = some (.jeq 0 1 20) := by decide
theorem test_decode_jne : decodeTableWord 128 0x00000009_00000002_00000000_00000009 = some (.jne 0 2 9) := by decide
theorem test_decode_cmp : decodeTableWord 96 0x00000002_00000000_0000000A = some (.cmp 0 2) := by decide
theorem test_decode_print : decodeTableWord 64 0x00000063_0000000B = some (.print 99) := by decide
theorem test_decode_halt : decodeTableWord 32 0x0000000C = some .halt := by decide
theorem test_decode_table_word_pads_with_zeros : decodeTableWord 32 0x00000003 = some (.add 0 0) := by decide
theorem test_decode_opcode_zero : decodeTableWord 32 0 = none := by decide
theorem test_decode_opcode_max : decodeTableWord 32 0x7FFFFFFF = none := by decide
theorem test_decode_names_unknown : decode [13, 0] = .error (.unknownOpcode 13) := by rfl
theorem test_decode_names_missing : decode [8, 0, 1] = .error (.missingOperands .jeq) := by rfl
theorem test_encode_jne : encode (.jne 0 2 9) = [9, 0, 2, 9] := by decide

/-- The text of R81's form: program P1's JNE and program P6's LOAD. -/
theorem test_text : assemblyText (.jne 0 2 9) = "JNE AX, CX, 9" ∧ assemblyText (.load 7 9) = "LOAD r7, 9" := by decide

/-! Data transfer. -/

/-- X1. -/
theorem test_load_ax : (after (machine [1, 0, 42] 0 0)).map (fun t => (t.ax, t.pc, t.z, t.c)) = some (42, 3, false, false) := by
  decide
/-- Y9: code -1 resolves to AX. -/
theorem test_load_code_minus_one : (after (machine [1, -1, 9] 0 0)).map (fun t => (t.ax, t.sp)) = some (9, 1023) := by decide
/-- X7: the last cell. -/
theorem test_store_last_cell :
    (after (machine [2, 0, 1023] 7 0)).map (fun t => (readMemory t 1023, t.pc)) = some (7, 3) := by decide
/-- X5: one past the last cell; memory is unchanged and the machine runs on. -/
theorem test_store_past_end :
    (after (machine [2, 0, 1024] 7 0)).map (fun t => (t.mem, t.pc, t.running)) =
      some ((machine [2, 0, 1024] 7 0).mem, 3, true) := by decide

/-! Arithmetic. -/

/-- A4 and A8. -/
theorem test_add_carry_threshold : arithmetic [3, 0, 1] 65535 1 = some (65536, false, true, 3) := by decide
theorem test_add_wrap_hides_carry : arithmetic [3, 0, 1] 2147483647 2147483647 = some (-2, false, false, 3) := by decide
/-- S4 (with 0 in AX) and S9. -/
theorem test_sub_carry_threshold : arithmetic [4, 0, 1] 0 32769 = some (-32769, false, true, 3) := by decide
theorem test_sub_same_register : arithmetic [4, 0, 0] 123 5 = some (0, true, false, 3) := by decide
/-- M10 and M5. -/
theorem test_mul_wrap : arithmetic [5, 0, 1] 46341 46341 = some (-2147479015, false, true, 3) := by decide
theorem test_mul_wrap_to_zero : arithmetic [5, 0, 1] 65536 65536 = some (0, true, false, 3) := by decide
/-- V2 and V9. -/
theorem test_div_truncates :
    arithmetic [6, 0, 1] (-7) 2 = some (-3, false, false, 3) ∧
      arithmetic [6, 0, 1] (-2147483648) (-1) = some (-2147483648, false, true, 3) := by decide
/-- V12. -/
theorem test_div_by_zero :
    arithmetic [6, 0, 1] 10 0 = some (10, false, false, 3) ∧
      (after (machine [6, 0, 1] 10 0)).map (fun t => (t.running, t.events)) = some (false, [.divByZero]) := by decide
/-- K6 and K1. -/
theorem test_cmp_wraps : arithmetic [10, 0, 1] 2147483647 (-2147483648) = some (2147483647, false, false, 3) := by decide
theorem test_cmp_equal : arithmetic [10, 0, 1] 1 1 = some (1, true, false, 3) := by decide

/-! Control. -/

/-- J4: the jump out of memory completes. -/
theorem test_jmp_out_of_range : (after (machine [7, 1024] 0 0)).map (fun t => (t.pc, t.running)) = some (1024, true) := by decide
/-- Q3 and Q4. -/
theorem test_jeq_code_seven : (after (machine [8, 0, 7, 20] 3 0)).map State.pc = some 20 := by decide
theorem test_jeq_min_max : (after (machine [8, 0, 1, 20] (-2147483648) 2147483647)).map State.pc = some 4 := by decide
/-- N4 and N3. -/
theorem test_jne_negative_target :
    (after (machine [9, 0, 1, -7] 0 1)).map (fun t => (t.pc, t.running)) = some (-7, true) := by decide
theorem test_jne_same_register : (after (machine [9, 1, 1, 50] 0 1)).map State.pc = some 4 := by decide

/-! System. -/

/-- P-2. -/
theorem test_print_code_ninety_nine :
    (after (machine [11, 99] (-8) 0)).map (fun t => (t.events, t.pc)) = some ([.print (-8)], 2) := by decide
/-- T2: a HALT in the last cell. -/
theorem test_halt_in_last_cell : (after (machineOf 1 [12])).map (fun t => (t.pc, t.running)) = some (1, false) := by decide

/-! The step, the host's operations and reset. -/

/-- Y1, Y3: unknown opcodes. -/
theorem test_unknown_zero : (after (machine [0] 0 0)).map (fun t => (t.pc, t.running)) = some (0, false) := by decide
theorem test_unknown_minus_one : (after (machine [-1] 0 0)).map (fun t => (t.pc, t.running)) = some (0, false) := by decide
/-- Y6, Y7: a step with pc out of range. -/
theorem test_pc_out_of_range :
    (after { machineOf 1024 [] with pc := 5000 }).map (fun t => (t.pc, t.running)) = some (5000, false) ∧
      (after { machineOf 1024 [] with pc := -3 }).map (fun t => (t.pc, t.running)) = some (-3, false) := by decide
/-- Y11, its second step: the operand cell past the end reads 0 under ZERO. -/
theorem test_operand_past_end_reads_zero :
    (after { machineOf 4 [1, 0, 9, 7] with pc := 3 }).map (fun t => (t.pc, t.running)) = some (0, true) := by decide
/-- Y12, its second step: it halts the machine under HALT. -/
theorem test_operand_past_end_halts :
    (stateOf (stepUnder .halt { machineOf 4 [1, 0, 9, 7] with pc := 3 })).map (fun t => (t.pc, t.running)) = some (3, false) := by
  decide
/-- H1: what does not fit is dropped. -/
theorem test_load_program_drops :
    (List.range 5).map (fun a => readMemory (machineOf 4 [1, 0, 5, 12, 99]) (BitVec.ofNat 32 a)) = [1, 0, 5, 12, 0] := by decide
/-- H2: capacity 0. -/
theorem test_capacity_zero :
    (machineOf 0 [1, 0, 5]).sp = -1 ∧ (after (machineOf 0 [1, 0, 5])).map (fun t => (t.pc, t.running)) = some (0, false) := by
  decide
/-- D11. -/
theorem test_load_program_refuses : loadProgramInts State.reset [1, 0, 2147483648] = none := by decide
/-- X9, its second step: a STORE over its own opcode cell still acts as the STORE it was. -/
theorem test_store_over_itself :
    (after { machine [1, 0, 12, 2, 0, 3, 7, 3] 12 0 with pc := 3 }).map (fun t => (t.pc, t.running, readMemory t 3)) =
      some (6, true, 12) := by decide
/-- H5. -/
theorem test_accessors :
    readRegister (machine [1, 0, 42] 42 0) none = 0 ∧ readMemory (machine [1, 0, 42] 0 0) (-1) = 0 ∧
      readMemory (machine [1, 0, 42] 0 0) 1024 = 0 ∧ readMemory (machine [1, 0, 42] 0 0) 2 = 42 := by decide
/-- The host's placement: the table's word runs as the first instruction after reset. -/
theorem test_with_fetch_word :
    (after (State.reset.withFetchWord 32 0x0000000B)).map (fun t => (t.events, t.pc)) = some ([.print 0], 2) := by decide

/-! Witnesses: concrete states and operands that meet the hypotheses of the statements. -/

theorem witness_OpcodeMapDecodesEveryRow :
    ((0 : Word).toInt < 1 ∨ 12 < (0 : Word).toInt) ∧ ((13 : Word).toInt < 1 ∨ 12 < (13 : Word).toInt) := by decide
theorem witness_DecodeInvertsEncode : decode [12, 5] = .ok (.halt, [5]) ∧ [12, 5] = encode .halt ++ [5] := ⟨rfl, rfl⟩
theorem witness_ProgramCellsParseUniquely : encodeProgram [.print 0, .halt] = encodeProgram [.print 0, .halt] := rfl
theorem witness_OpcodeCellAloneDecidesLength :
    decode [7, 9, 12] = .ok (.jmp 9, [12]) ∧ (Instr.jmp 9).opcode.width ≤ [7, 1].length := ⟨rfl, by decide⟩
theorem witness_WrapIsTheUniqueResidue : ((-1 : Word).toInt) % 4294967296 = (4294967295 : Int) % 4294967296 := by decide
theorem witness_ExactArithmeticAgreesWithBitVectors : (-1 : Word) ≠ 0 := by decide
theorem witness_DivisionRoundsTowardZero :
    ((machine [] 7 (-2)).readReg (rc 0)).toInt = 7 ∧ ((machine [] 7 (-2)).readReg (rc 1)).toInt = -2 ∧
      ((machine [] (-2147483648) (-1)).readReg (rc 0)).toInt = minValue ∧
      ((machine [] (-2147483648) (-1)).readReg (rc 1)).toInt = -1 := by decide
theorem witness_RegisterCodesResolve : (-1 : Word).toInt < 0 ∧ 4 < (5 : Word).toInt := by decide
theorem witness_StoreWritesOneCellOrNothing :
    (0 ≤ (0 : Word).toInt ∧ (0 : Word).toInt < ((machine [] 7 0).capacity : Int)) ∧
      (1023 : Word).toInt < ((machine [] 7 0).capacity : Int) ∧ ((machine [] 7 0).capacity : Int) ≤ (1024 : Word).toInt ∧
      (-1 : Word).toInt < 0 := by decide
theorem witness_StoreLeavesEveryOtherByte :
    (machine [] 7 0).inRange 0 = true ∧ (machine [] 7 0).inRange 1023 = true ∧ (machine [] 7 0).inRange 1024 = false := by decide
theorem witness_DivDividesOrHalts : (machine [] 7 2).readReg (rc 1) ≠ 0 ∧ (machine [] 7 0).readReg (rc 1) = 0 := by decide
theorem witness_JmpReplacesPc :
    (stateOf (exec (.jmp 1024) (machine [] 0 0))).map (fun t => (t.running, decide ((t.capacity : Int) ≤ t.pc.toInt))) =
      some (true, true) := by decide
theorem witness_JeqJumpsWhenEqual :
    ((machine [] 3 3).readReg (rc 0)).toInt = ((machine [] 3 3).readReg (rc 1)).toInt ∧
      ((machine [] 3 4).readReg (rc 0)).toInt ≠ ((machine [] 3 4).readReg (rc 1)).toInt ∧
      (stateOf (exec (.jeq 0 1 (-1)) (machine [] 3 3))).map (fun t => (t.running, decide (t.pc.toInt < 0))) = some (true, true) := by
  decide
theorem witness_JneJumpsWhenDifferent :
    (stateOf (exec (.jne 0 1 (-1)) (machine [] 3 4))).map (fun t => (t.running, decide (t.pc.toInt < 0))) = some (true, true) := by
  decide
theorem witness_SameRegisterForBothOperands :
    rc 0 = rc 7 ∧ (machine [] 5 0).readReg (rc 0) ≠ 0 ∧ (machine [] 0 5).readReg (rc 0) = 0 := by decide
theorem witness_StepRunsDecodedInstruction :
    (machine [3, 0, 1] 2 3).running = true ∧ (machine [3, 0, 1] 2 3).inRange (machine [3, 0, 1] 2 3).pc = true ∧
      decode (machine [3, 0, 1] 2 3).cellsAtPc = .ok (.add 0 1, [0]) ∧ (Instr.add 0 1).wellFormed = true :=
  ⟨rfl, by decide, rfl, rfl⟩
theorem witness_StoredInstructionRunsUnderEitherPolicy :
    (machineOf 2 [7, 0]).running = true ∧ ∀ k, k < (Instr.jmp 0).opcode.width →
      (machineOf 2 [7, 0]).inRange ((machineOf 2 [7, 0]).pc + BitVec.ofNat 32 k) = true ∧
      (machineOf 2 [7, 0]).memRead ((machineOf 2 [7, 0]).pc + BitVec.ofNat 32 k) = (encode (.jmp 0)).getD k 0 := by decide
theorem witness_StepWithoutFetchOnlyHalts :
    State.reset.running = false ∧ (machineOf 0 []).running = true ∧
      ((machineOf 0 []).capacity : Int) ≤ (machineOf 0 []).pc.toInt ∧ ({ machineOf 4 [] with pc := -1 } : State).pc.toInt < 0 := by
  decide
theorem witness_UnknownOpcodeOnlyHalts :
    (machine [13] 0 0).running = true ∧ (machine [13] 0 0).inRange (machine [13] 0 0).pc = true ∧
      12 < ((machine [13] 0 0).memRead (machine [13] 0 0).pc).toInt ∧
      ((machine [0] 0 0).memRead (machine [0] 0 0).pc).toInt < 1 := by decide
theorem witness_OperandReadFollowsPolicy :
    (0 ≤ (3 : Word).toInt ∧ (3 : Word).toInt < ((machineOf 4 []).capacity : Int)) ∧
      ((machineOf 4 []).capacity : Int) ≤ (4 : Word).toInt ∧ (-1 : Word).toInt < 0 := by decide
theorem witness_PolicyMattersOnlyPastTheEnd :
    (machineOf 1 [7]).fetches = true ∧ decodeOpcode ((machineOf 1 [7]).memRead (machineOf 1 [7]).pc) = some .jmp ∧
      (∃ k, 1 ≤ k ∧ k < Opcode.jmp.width ∧ (machineOf 1 [7]).inRange ((machineOf 1 [7]).pc + BitVec.ofNat 32 k) = false) ∧
      decodeOpcode ((machineOf 2 [7]).memRead (machineOf 2 [7]).pc) = some .jmp ∧
      (∀ k, k < Opcode.jmp.width → 1 ≤ k → (machineOf 2 [7]).inRange ((machineOf 2 [7]).pc + BitVec.ofNat 32 k) = true) ∧
      ({ machineOf 1 [7] with running := false } : State).fetches = false :=
  ⟨by decide, by decide, ⟨1, by decide⟩, by decide, by decide, by decide⟩
theorem witness_OutOfRangePcHaltsAtNextStep :
    currentInstr (machine [7, 1024] 0 0) = some (.jmp 1024) ∧
      (after (machine [7, 1024] 0 0)).map (fun t => decide ((t.capacity : Int) ≤ t.pc.toInt)) = some true := by decide
theorem witness_StoreIsSeenByNextFetch :
    currentInstr (machine [2, 0, 3] 12 0) = some (.store 0 3) ∧ (3 : Word) = (machine [2, 0, 3] 12 0).pc + 3 ∧
      (machine [2, 0, 3] 12 0).inRange 3 = true := by decide
theorem witness_HaltConditionsInOrder_first_clauses :
    State.reset.running = false ∧ (machineOf 0 []).running = true ∧ (machineOf 0 []).inRange (machineOf 0 []).pc = false ∧
      (machine [13] 0 0).fetches = true ∧ 12 < ((machine [13] 0 0).memRead (machine [13] 0 0).pc).toInt := by decide
theorem witness_HaltConditionsInOrder_operand_clause :
    (machineOf 1 [7]).fetches = true ∧ decodeOpcode ((machineOf 1 [7]).memRead (machineOf 1 [7]).pc) = some .jmp ∧
      (1 < Opcode.jmp.width ∧ (machineOf 1 [7]).inRange ((machineOf 1 [7]).pc + BitVec.ofNat 32 1) = false) := by decide
theorem witness_HaltConditionsInOrder_own_clauses :
    (machine [6, 0, 1] 5 0).fetches = true ∧ decode (machine [6, 0, 1] 5 0).cellsAtPc = .ok (.div 0 1, [0]) ∧
      (machine [6, 0, 1] 5 0).readReg (rc 1) = 0 ∧
      (machineOf 1 [12]).fetches = true ∧ decode (machineOf 1 [12]).cellsAtPc = .ok (.halt, [0, 0, 0]) ∧
      (machine [6, 0, 1] 5 1).fetches = true ∧ decode (machine [6, 0, 1] 5 1).cellsAtPc = .ok (.div 0 1, [0]) ∧
      (machine [6, 0, 1] 5 1).readReg (rc 1) ≠ 0 :=
  ⟨by decide, rfl, by decide, by decide, rfl, by decide, rfl, by decide⟩
theorem witness_HaltTableStateAfter :
    haltCondition .zero (machine [12] 0 0) = some .haltInstr ∧ haltCondition .zero (machine [13] 0 0) = some .unknown ∧
      haltCondition .zero (machine [6, 0, 1] 5 0) = some .div0 ∧ haltCondition .zero (machineOf 0 []) = some .pcRange ∧
      haltCondition .halt (machineOf 1 [7]) = some .operandRange := by decide
theorem witness_RunStateClearedExactlyByHaltConditions :
    (stateOf (stepUnder .zero (machine [1, 0, 42] 0 0))).isSome = true ∧ haltCondition .zero (machine [1, 0, 42] 0 0) = none := by
  decide
theorem witness_HaltedMachineStaysAsItIs : State.reset.running = false := rfl
theorem witness_OnlyFiveInstructionsWriteFlags :
    (after (machine [4, 0, 0] 1 0)).map State.z = some true ∧ (machine [4, 0, 0] 1 0).z = false := by decide
theorem witness_OnlyPrintAndDivisionByZeroEmit :
    (after (machine [11, 0] 1 0)).map State.events = some [.print 1] ∧
      (after (machine [6, 0, 1] 1 0)).map State.events = some [.divByZero] := by decide
theorem witness_OnlyStoreChangesMemory :
    (after (machine [2, 0, 9] 7 0)).map (fun t => t.mem.read (cellByte 9 0)) = some 7 ∧
      (machine [2, 0, 9] 7 0).mem.read (cellByte 9 0) = 0 := by decide
theorem witness_AtMostOneRegisterChanges :
    (after (machine [1, 3, 9] 0 0)).map (fun t => t.readReg .dx) = some 9 ∧ (machine [1, 3, 9] 0 0).readReg .dx = 0 := by decide
theorem witness_StackPointerIsOrdinary :
    (after (machine [1, 4, 9] 0 0)).map State.sp = some 9 ∧ (machine [1, 4, 9] 0 0).sp = 1023 := by decide
theorem witness_PcAdvancesByWidthOrJumps :
    (after (machine [0] 0 0)).isSome = true ∧ currentInstr (machine [0] 0 0) = none ∧
      currentInstr (machine [11, 0] 0 0) = some (.print 0) ∧ currentInstr (machine [7, 9] 0 0) = some (.jmp 9) := by decide
/-- The largest admitted machine, standing at its last cell. -/
theorem witness_PcAdvanceNeverWraps :
    ({ State.constructed 2147483644 with pc := 2147483643 } : State).Inv ∧
      ({ State.constructed 2147483644 with pc := 2147483643 } : State).inRange 2147483643 = true :=
  ⟨⟨by decide, by decide, by decide⟩, by decide⟩
theorem witness_CellReadsAsLastWritten :
    (machine [] 0 0).inRange 1023 = true ∧ (1022 : Word) ≠ 1023 ∧ (machine [] 0 0).inRange 1024 = false := by decide
theorem witness_ConstructionGivesResetTable :
    (construct 0).isSome = true ∧ (construct 2147483644).isSome = true ∧ construct (-1) = none ∧
      construct 2147483645 = none := by decide
theorem witness_LoadProgramCopiesPrefix :
    (∀ v ∈ [2147483647, -2147483648], minValue ≤ v ∧ v ≤ maxValue) ∧
      (∃ v ∈ [(2147483648 : Int)], v < minValue ∨ maxValue < v) := by
  refine ⟨by decide, 2147483648, by simp, by decide⟩
theorem witness_LoadedInstructionRunsFirst :
    (encode (.jeq 0 1 2)).length ≤ (State.constructed 4).capacity ∧ (State.constructed 4).capacity ≤ Config.maxCapacity := by decide
theorem witness_AccessorsReadTheState :
    (0 ≤ (1023 : Word).toInt ∧ (1023 : Word).toInt < (State.reset.capacity : Int)) ∧
      (State.reset.capacity : Int) ≤ (1024 : Word).toInt := by decide
theorem witness_RunIsRepeatedStepping :
    (runFuel 1 (machineOf 1 [12])).isSome = true ∧ runFuel 1 (machineOf 2 [7, 0]) = none := by decide
theorem witness_RunReturnsOneHaltedState :
    RunReturns State.reset State.reset ∧ State.reset.running = false := ⟨⟨0, rfl⟩, rfl⟩
theorem witness_JumpToItselfNeverReturns :
    currentInstr (machineOf 2 [7, 0]) = some (.jmp (machineOf 2 [7, 0]).pc) := by decide
theorem witness_StepKeepsInvariant :
    (machineOf 8 [2, 0, 7]).Inv ∧ (stateOf (stepUnder .zero (machineOf 8 [2, 0, 7]))).isSome = true :=
  ⟨⟨by decide, by decide, by decide⟩, by decide⟩
theorem witness_ReachableStatesMeetInvariant : Reachable State.reset := Reachable.construct (capacity := 1024) (by decide)

end Sys2Proof.Tests
end

section
/-! SUPPORT and PROOFS. The scope chapter (00_scope.md): `wrap` as reduction modulo 2^32 (R12), and construction (R8, R190) at the default
capacity. -/

namespace Sys2Proof.Machine

/-! Words and residues modulo 2^32. -/

theorem toInt_mem_isaRange (w : Word) : minValue ≤ w.toInt ∧ w.toInt ≤ maxValue := by
  have hlow := w.le_toInt
  have hhigh := w.toInt_lt
  simp only [minValue, maxValue]
  omega

theorem toInt_wrap_emod (v : Int) : (wrap v).toInt % 4294967296 = v % 4294967296 := by
  rw [wrap, BitVec.toInt_ofInt]
  exact Int.bmod_emod

/-- `wrap` sees an integer only through its residue: its signed value is the balanced residue, which the residue determines. -/
theorem wrap_congr {u v : Int} (h : u % 4294967296 = v % 4294967296) : wrap u = wrap v := by
  apply BitVec.eq_of_toInt_eq
  rw [wrap, wrap, BitVec.toInt_ofInt, BitVec.toInt_ofInt]
  calc u.bmod (2 ^ 32)
      _ = (u % 4294967296).bmod (2 ^ 32) := (Int.emod_bmod u (2 ^ 32)).symm
      _ = (v % 4294967296).bmod (2 ^ 32) := by rw [h]
      _ = v.bmod (2 ^ 32) := Int.emod_bmod v (2 ^ 32)

theorem eq_wrap_of_toInt_emod_eq {w : Word} {v : Int} (h : w.toInt % 4294967296 = v % 4294967296) : w = wrap v := by
  rw [← wrap_congr h, wrap_toInt]

/-- Settles O6: range and congruence are facts about words and `wrap`; a congruent word is `wrap` of its own value, and `wrap` depends on
the residue alone. -/
theorem wrapIsTheUniqueResidue : Obligations.WrapIsTheUniqueResidue := by
  unfold Obligations.WrapIsTheUniqueResidue
  intro v
  obtain ⟨hlow, hhigh⟩ := toInt_mem_isaRange (wrap v)
  exact ⟨hlow, hhigh, toInt_wrap_emod v, fun _ => eq_wrap_of_toInt_emod_eq⟩

/-! Construction. -/

theorem construct_of_admitted {capacity : Int} (h : capacityAdmitted capacity = true) :
    construct capacity = some (State.constructed capacity.toNat) := if_pos h

/-- An admitted capacity is small enough that `CAPACITY - 1` is exact in SP (R8, R34). -/
theorem constructed_sp_toInt {capacity : Nat} (h : capacity ≤ Config.maxCapacity) :
    (State.constructed capacity).sp.toInt = (capacity : Int) - 1 := by
  simp only [Config.maxCapacity] at h
  apply toInt_wrap
  simp only [minValue, maxValue]
  omega

/-- Settles O50: the default capacity is admitted, and construction with it is the definition of `State.reset`. -/
theorem resetIsDefaultConstruction : Obligations.ResetIsDefaultConstruction := by
  unfold Obligations.ResetIsDefaultConstruction
  have hsp : State.reset.sp.toInt = 1023 := constructed_sp_toInt (capacity := Config.defaultCapacity) (by decide)
  exact ⟨construct_of_admitted (by decide), rfl, hsp, rfl, rfl, rfl⟩

end Sys2Proof.Machine
end

section
/-! SUPPORT. The state chapter (10_state.md): what a step can do to the flags, the registers, pc, the run state and the invariant. Each is said
once of `exec`, from the shapes of `exec_cases`, and carried to the step by the inversion lemmas below. -/

namespace Sys2Proof.Machine

/-! The step, inverted. -/

theorem step_of_currentInstr_none {s : State} (h : currentInstr s = none) : step s = .next s.halt := by
  rcases step_cases s with ⟨_, hs⟩ | ⟨i, hi, _⟩
  · exact hs
  · simp [h] at hi

/-- A step that answers `t` halted in place or ran the current instruction. -/
theorem step_next_cases {s t : State} (h : step s = .next t) :
    (currentInstr s = none ∧ t = s.halt) ∨ (∃ i, currentInstr s = some i ∧ exec i s = .next t) := by
  rcases step_cases s with ⟨hi, hs⟩ | ⟨i, hi, hs⟩
  · rw [hs] at h
    cases h
    exact .inl ⟨hi, rfl⟩
  · exact .inr ⟨i, hi, hs ▸ h⟩

/-! What the fetch reads: memory, its length, pc and, for the current instruction, the run state (R90 to R92). -/

theorem opRead_congr {s t : State} (hm : t.mem = s.mem) (hc : t.capacity = s.capacity)
    (policy : Config.OorOperandPolicy) (a : Word) : opRead policy t a = opRead policy s a := by
  simp only [opRead, inRange_congr hc, memRead_congr hm]

theorem fetchOperands_congr {s t : State} (hm : t.mem = s.mem) (hc : t.capacity = s.capacity)
    (policy : Config.OorOperandPolicy) (a : Word) (n : Nat) :
    fetchOperands policy t a n = fetchOperands policy s a n := by
  induction n generalizing a with
  | zero => rfl
  | succ n ih => simp only [fetchOperands, opRead_congr hm hc, ih]

theorem fetch_congr {s t : State} (hm : t.mem = s.mem) (hc : t.capacity = s.capacity) (hp : t.pc = s.pc)
    (policy : Config.OorOperandPolicy) : fetch policy t = fetch policy s := by
  simp only [fetch, hp, memRead_congr hm, fetchOperands_congr hm hc]

theorem currentInstr_congr {s t : State} (hm : t.mem = s.mem) (hc : t.capacity = s.capacity) (hp : t.pc = s.pc)
    (hr : t.running = s.running) : currentInstr t = currentInstr s := by
  have hfetches : t.fetches = s.fetches := by simp only [State.fetches, hr, hp, inRange_congr hc]
  unfold currentInstr
  rw [hfetches, fetch_congr hm hc hp]

/-! The state with other flags: every read passes through, and every operation either commutes with the change or overwrites it. -/

/-- The same machine with the flags `z` and `c`. -/
def State.withFlags (s : State) (z c : Bool) : State := { s with z := z, c := c }

@[simp] theorem withFlags_operand (s : State) (z c : Bool) (r : Word) : (s.withFlags z c).operand r = s.operand r := by
  unfold State.operand; cases rc r <;> rfl

@[simp] theorem writeReg_withFlags (s : State) (z c : Bool) (r : Reg) (v : Word) :
    (s.withFlags z c).writeReg r v = (s.writeReg r v).withFlags z c := by cases r <;> rfl

@[simp] theorem memWrite_withFlags (s : State) (z c : Bool) (a v : Word) :
    (s.withFlags z c).memWrite a v = (s.memWrite a v).withFlags z c := by
  cases h : s.inRange a
  · rw [memWrite_outOfRange s v h, memWrite_outOfRange (s.withFlags z c) v h]
  · rw [memWrite_inRange s v h, memWrite_inRange (s.withFlags z c) v h]; rfl

@[simp] theorem setPc_withFlags (s : State) (z c : Bool) (a : Word) :
    (s.withFlags z c).setPc a = (s.setPc a).withFlags z c := rfl

@[simp] theorem advance_withFlags (s : State) (z c : Bool) (op : Opcode) :
    (s.withFlags z c).advance op = (s.advance op).withFlags z c := rfl

@[simp] theorem halt_withFlags (s : State) (z c : Bool) : (s.withFlags z c).halt = s.halt.withFlags z c := rfl

@[simp] theorem emit_withFlags (s : State) (z c : Bool) (e : Event) :
    (s.withFlags z c).emit e = (s.emit e).withFlags z c := rfl

@[simp] theorem updateFlags_withFlags (s : State) (z c : Bool) (v : Word) :
    (s.withFlags z c).updateFlags v = s.updateFlags v := rfl

@[simp] theorem writeResult_withFlags (s : State) (z c : Bool) (op : Opcode) (r1 v : Word) :
    (s.withFlags z c).writeResult op r1 v = s.writeResult op r1 v := by simp [State.writeResult]

@[simp] theorem currentInstr_withFlags (s : State) (z c : Bool) : currentInstr (s.withFlags z c) = currentInstr s :=
  currentInstr_congr rfl rfl rfl rfl

/-! No flag is read (R28). -/

/-- `f` at `s` answers a state, and started with any other flags it answers that very state, having overwritten both, or that state with
the flags it was started with. -/
def ReadsNoFlag (f : State → Host.Outcome State Fault Refusal) (s : State) : Prop :=
  ∃ t, f s = .next t ∧
    ((∀ z c, f (s.withFlags z c) = .next t) ∨ (SameFlags s t ∧ ∀ z c, f (s.withFlags z c) = .next (t.withFlags z c)))

/-- Each meaning sets both flags (ADD, SUB, MUL, CMP, a DIV that divides) or neither. -/
theorem exec_readsNoFlag (i : Instr) (s : State) : ReadsNoFlag (exec i) s := by
  cases i with
  | load r imm => exact ⟨_, rfl, .inr ⟨by simp [SameFlags], by simp⟩⟩
  | store r addr => exact ⟨_, rfl, .inr ⟨by simp [SameFlags], by simp⟩⟩
  | add r1 r2 => exact ⟨_, rfl, .inl (by simp)⟩
  | sub r1 r2 => exact ⟨_, rfl, .inl (by simp)⟩
  | mul r1 r2 => exact ⟨_, rfl, .inl (by simp)⟩
  | div r1 r2 =>
    by_cases h : s.operand r2 = 0
    · exact ⟨_, exec_div_zero r1 h, .inr ⟨by simp [SameFlags], fun z c => by simp [exec_div_zero, h]⟩⟩
    · refine ⟨_, exec_div_nonzero r1 h, .inl fun z c => ?_⟩
      rw [exec_div_nonzero r1 (by simpa using h)]
      simp
  | jmp addr => exact ⟨_, rfl, .inr ⟨by simp [SameFlags], by simp⟩⟩
  | jeq r1 r2 addr =>
    refine ⟨_, exec_jeq r1 r2 addr s, .inr ⟨?_, fun z c => ?_⟩⟩ <;> by_cases h : s.operand r1 = s.operand r2
    all_goals simp [SameFlags, exec_jeq, h]
  | jne r1 r2 addr =>
    refine ⟨_, exec_jne r1 r2 addr s, .inr ⟨?_, fun z c => ?_⟩⟩ <;> by_cases h : s.operand r1 = s.operand r2
    all_goals simp [SameFlags, exec_jne, h]
  | cmp r1 r2 => exact ⟨_, rfl, .inl (by simp)⟩
  | print r => exact ⟨_, rfl, .inr ⟨by simp [SameFlags], by simp⟩⟩
  | halt => exact ⟨_, rfl, .inr ⟨by simp [SameFlags], by simp⟩⟩

/-- The step adds nothing: which instruction it performs does not depend on the flags, and a halt in place keeps them. -/
theorem step_readsNoFlag (s : State) : ReadsNoFlag step s := by
  cases hi : currentInstr s with
  | none =>
    refine ⟨s.halt, step_of_currentInstr_none hi, .inr ⟨by simp [SameFlags], fun z c => ?_⟩⟩
    rw [step_of_currentInstr_none ((currentInstr_withFlags s z c).trans hi), halt_withFlags]
  | some i =>
    have hstep (z c : Bool) : step (s.withFlags z c) = exec i (s.withFlags z c) :=
      step_of_currentInstr ((currentInstr_withFlags s z c).trans hi)
    simpa only [ReadsNoFlag, hstep, step_of_currentInstr hi] using exec_readsNoFlag i s

/-- Settles O39: the second machine is `s.withFlags z c`, and `step_readsNoFlag` gives its answer as the first one's or as that with its
own flags. -/
theorem flagsAreReadByNoInstruction : Obligations.FlagsAreReadByNoInstruction := by
  unfold Obligations.FlagsAreReadByNoInstruction
  intro s z c
  obtain ⟨t, ht, hu | ⟨hst, hu⟩⟩ := step_readsNoFlag s
  · exact ⟨t, t, ht, hu z c, rfl, .inl ⟨rfl, rfl⟩⟩
  · exact ⟨t, t.withFlags z c, ht, hu z c, rfl, .inr ⟨hst, rfl, rfl⟩⟩

/-! The invariant. -/

/-- The invariant speaks of memory and its length only. -/
theorem State.Inv.congr {s t : State} (h : s.Inv) (hm : t.mem = s.mem) (hc : t.capacity = s.capacity) : t.Inv := by
  obtain ⟨hwf, hwithin, hcap⟩ := h
  exact ⟨hm ▸ hwf, hm ▸ hc ▸ hwithin, hc ▸ hcap⟩

theorem constructed_inv {capacity : Nat} (h : capacity ≤ Config.maxCapacity) : (State.constructed capacity).Inv where
  memWf := ⟨List.Pairwise.nil, by simp [State.constructed]⟩
  memWithin := by simp [State.constructed]
  capacityLe := h

theorem memWrite_inv {s : State} (a v : Word) (h : s.Inv) : (s.memWrite a v).Inv where
  memWf := memWrite_wf a v h.memWf
  memWithin := by
    rw [memWrite_capacity]
    exact memWrite_within a v h.memWithin
  capacityLe := by
    rw [memWrite_capacity]
    exact h.capacityLe

/-- A meaning leaves memory as it was, or leaves what a `memWrite` leaves. -/
theorem exec_inv {i : Instr} {s t : State} (hs : s.Inv) (h : exec i s = .next t) : t.Inv := by
  have hcap := exec_capacity h
  rcases exec_mem h with hm | ⟨r, addr, -, ha, hm⟩
  · exact hs.congr hm hcap
  · exact (memWrite_inv addr (s.operand r) hs).congr (by simp [hm, ha]) (by simp [hcap])

/-- Settles O57: a step halts in place, which leaves memory, or runs an instruction, which keeps the invariant. -/
theorem stepKeepsInvariant : Obligations.StepKeepsInvariant := by
  unfold Obligations.StepKeepsInvariant
  intro policy s t hs h
  rcases stepUnder_cases policy s with ⟨hstep, -⟩ | ⟨i, -, -, hstep⟩
  · rw [hstep] at h
    cases h
    exact hs.congr rfl rfl
  · exact exec_inv hs (hstep ▸ h)

/-- Settles O58: reset is construction with an admitted capacity. -/
theorem resetMeetsInvariant : Obligations.ResetMeetsInvariant := by
  unfold Obligations.ResetMeetsInvariant
  exact constructed_inv (by decide)

/-! Registers (R20 to R24). -/

/-- A word outside 0..4 is none of the five codes. -/
theorem ne_of_outside_codes {code k : Word} (h : code.toInt < 0 ∨ 4 < code.toInt)
    (hk : 0 ≤ k.toInt ∧ k.toInt ≤ 4) : code ≠ k := by
  rintro rfl
  omega

theorem rc_outside {code : Word} (h : code.toInt < 0 ∨ 4 < code.toInt) : rc code = .ax := by
  simp only [rc, ne_of_outside_codes h (k := 0) (by decide), ne_of_outside_codes h (k := 1) (by decide),
    ne_of_outside_codes h (k := 2) (by decide), ne_of_outside_codes h (k := 3) (by decide),
    ne_of_outside_codes h (k := 4) (by decide), if_false]

/-- Only AX has more than one code: SP's is 4. -/
theorem eq_four_of_rc_eq_sp {code : Word} (h : rc code = .sp) : code = 4 := by
  unfold rc at h
  split_ifs at h
  assumption

/-- Settles O9: the five codes by evaluation, every other word by `rc_outside`. -/
theorem registerCodesResolve : Obligations.RegisterCodesResolve := by
  unfold Obligations.RegisterCodesResolve
  exact ⟨rfl, rfl, rfl, rfl, rfl, fun _ => rc_outside⟩

/-- What a meaning does to the registers: nothing, or a write to the one its first register code names. -/
theorem exec_regs {i : Instr} {s t : State} (h : exec i s = .next t) :
    SameRegs s t ∨ ∃ r1, i.opcode ∈ [Opcode.load, .add, .sub, .mul, .div] ∧ i.operands.head? = some r1 ∧
      SameRegsBut (rc r1) s t := by
  rcases exec_cases h with
    ⟨r, imm, rfl, h⟩ | ⟨_, _, _, h⟩ | ⟨r1, v, hop, hr1, _, h⟩ | ⟨_, _, _, _, h⟩ | ⟨_, _, _, h⟩ | ⟨_, h⟩ | ⟨_, _, _, h⟩ | ⟨_, _, h⟩ | ⟨_, h⟩
  case inl => -- LOAD
    cases h
    exact .inr ⟨r, by simp [Instr.opcode], rfl, fun q hq => by simp [readReg_writeReg_ne, hq]⟩
  case inr.inr.inl => -- ADD, SUB, MUL, a DIV that divides
    cases h
    exact .inr ⟨r1, List.mem_cons_of_mem _ hop, hr1, fun q hq => by simp [hq]⟩
  all_goals
    cases h
    exact .inl fun q => by simp

/-- Settles O44: a changed register can only be the one `exec_regs` leaves out. -/
theorem atMostOneRegisterChanges : Obligations.AtMostOneRegisterChanges := by
  unfold Obligations.AtMostOneRegisterChanges
  intro s t q h hq
  rcases step_next_cases h with ⟨-, rfl⟩ | ⟨i, hi, he⟩
  · exact absurd (halt_readReg s q) hq
  · rcases exec_regs he with hsame | ⟨r1, hop, hr1, hsame⟩
    · exact absurd (hsame q) hq
    · obtain rfl : q = rc r1 := by_contra fun hne => hq (hsame q hne)
      exact ⟨hsame, i, r1, hi, hop, hr1, rfl⟩

/-- Settles O45: O44 at SP, whose only code is 4. -/
theorem stackPointerIsOrdinary : Obligations.StackPointerIsOrdinary := by
  unfold Obligations.StackPointerIsOrdinary
  intro s t h hsp
  obtain ⟨-, i, r1, hi, hop, hr1, hrc⟩ := atMostOneRegisterChanges s t .sp h hsp
  obtain rfl := eq_four_of_rc_eq_sp hrc
  exact ⟨i, hi, hr1, hop⟩

/-! Flags (R27, R28). -/

theorem flagsOf_of_eq {v : Word} {t : State} (hz : t.z = zeroFlag v) (hc : t.c = carryFlag v) : FlagsOf v t := by
  refine ⟨?_, by rw [hc, carryFlag_iff]⟩
  rw [hz, zeroFlag_iff, ← BitVec.toInt_inj]
  rfl

/-- Settles O10: the two flags by `flagsOf_of_eq`, the rest by the field lemmas of `updateFlags`. -/
theorem updateFlagsSetsBoth : Obligations.UpdateFlagsSetsBoth := by
  unfold Obligations.UpdateFlagsSetsBoth
  intro r s
  exact ⟨flagsOf_of_eq rfl rfl, updateFlags_readReg s r, rfl, rfl, ⟨rfl, fun _ => rfl⟩, rfl⟩

theorem eq_div_of_opcode {i : Instr} (h : i.opcode = .div) : ∃ r1 r2, i = .div r1 r2 := by
  cases i
  case div r1 r2 => exact ⟨r1, r2, rfl⟩
  all_goals cases h

/-- What a meaning does to the flags: nothing, unless it is ADD, SUB, MUL, CMP or a DIV that divides. -/
theorem exec_flags {i : Instr} {s t : State} (h : exec i s = .next t) :
    SameFlags s t ∨ i.opcode ∈ [Opcode.add, .sub, .mul, .cmp] ∨ ∃ r1 r2, i = .div r1 r2 ∧ s.operand r2 ≠ 0 := by
  rcases exec_cases h with
    ⟨_, _, _, h⟩ | ⟨_, _, _, h⟩ | ⟨_, _, hop, _, hdiv, _⟩ | ⟨_, _, _, _, h⟩ | ⟨_, _, _, h⟩ | ⟨_, h⟩ | ⟨_, _, rfl, _⟩ | ⟨_, _, h⟩ | ⟨_, h⟩
  case inr.inr.inl => -- ADD, SUB, MUL, a DIV that divides
    by_cases hd : i.opcode = .div
    · obtain ⟨r1, r2, rfl⟩ := eq_div_of_opcode hd
      exact .inr (.inr ⟨r1, r2, rfl, hdiv r1 r2 rfl⟩)
    · refine .inr (.inl ?_)
      simp only [List.mem_cons, hd] at hop ⊢
      tauto
  case inr.inr.inr.inr.inr.inr.inl => -- CMP
    exact .inr (.inl (by simp [Instr.opcode]))
  all_goals
    cases h
    exact .inl (by simp [SameFlags])

/-- Settles O38: the step's instruction is one that `exec_flags` lets write the flags. -/
theorem onlyFiveInstructionsWriteFlags : Obligations.OnlyFiveInstructionsWriteFlags := by
  unfold Obligations.OnlyFiveInstructionsWriteFlags
  intro s t h hne
  rcases step_next_cases h with ⟨-, rfl⟩ | ⟨i, hi, he⟩
  · exact absurd ⟨rfl, rfl⟩ hne
  · exact ⟨i, hi, (exec_flags he).resolve_left hne⟩

/-! The exact results of an operation on one register (R24). -/

theorem sumWord_eq_add (a b : Word) : sumWord a b = a + b := by
  simp [sumWord, wrap, BitVec.ofInt_add]

theorem productWord_eq_mul (a b : Word) : productWord a b = a * b := by
  simp [productWord, wrap, BitVec.ofInt_mul]

theorem differenceWord_self (a : Word) : differenceWord a a = 0 := by
  simp [differenceWord, wrap]

theorem quotientWord_self {a : Word} (h : a ≠ 0) : quotientWord a a = 1 := by
  have hne : a.toInt ≠ 0 := fun h0 => h (BitVec.eq_of_toInt_eq (by simpa using h0))
  rw [quotientWord, Int.tdiv_self hne]
  rfl

/-- Settles O24: both operands are the one register's value, so each result is that of the operation on it and itself. -/
theorem sameRegisterForBothOperands : Obligations.SameRegisterForBothOperands := by
  unfold Obligations.SameRegisterForBothOperands
  intro r1 r2 addr s hrc
  have h1 : s.operand r1 = s.readReg (rc r1) := rfl
  have h2 : s.operand r2 = s.readReg (rc r1) := congrArg s.readReg hrc.symm
  refine ⟨⟨_, exec_add r1 r2 s, ?_⟩, ⟨_, exec_sub r1 r2 s, ?_⟩, ⟨_, exec_mul r1 r2 s, ?_⟩, fun hne => ?_, fun h0 => ?_,
    ⟨_, exec_cmp r1 r2 s, ?_⟩, ⟨_, exec_jeq r1 r2 addr s, ?_⟩, ⟨_, exec_jne r1 r2 addr s, ?_⟩⟩
  · simp [h1, h2, sumWord_eq_add]
  · simp [h1, h2, differenceWord_self, zeroFlag, carryFlag]
  · simp [h1, h2, productWord_eq_mul]
  · refine ⟨_, exec_div_nonzero r1 (h2 ▸ hne), ?_⟩
    simp [h1, h2, quotientWord_self hne, zeroFlag, carryFlag]
  · exact ⟨_, exec_div_zero r1 (h2.trans h0), by simp [h0]⟩
  · simp [h1, h2, differenceWord_self, zeroFlag, carryFlag]
  · simp [h1, h2]
  · simp [h1, h2]

/-! pc (R25, R26, R75). -/

/-- What a meaning does to pc: the width advance, or the target of a jump. -/
theorem exec_pc {i : Instr} {s t : State} (h : exec i s = .next t) :
    t.pc = s.pc + BitVec.ofNat 32 i.opcode.width ∨
      i.opcode ∈ [Opcode.jmp, .jeq, .jne] ∧ i.operands.getLast? = some t.pc := by
  rcases exec_cases h with
    ⟨_, _, rfl, h⟩ | ⟨_, _, rfl, h⟩ | ⟨_, _, _, _, _, h⟩ | ⟨_, _, rfl, _, h⟩ | ⟨_, hop, ha, h⟩ | ⟨_, h⟩ | ⟨_, _, rfl, h⟩ | ⟨_, rfl, h⟩ | ⟨rfl, h⟩
  case inr.inr.inr.inr.inl => -- a jump that is taken
    cases h
    exact .inr ⟨hop, ha⟩
  all_goals
    cases h
    exact .inl (by simp [Instr.opcode])

/-- Settles O46: a halt in place leaves pc, and `exec_pc` says what an instruction does. -/
theorem pcAdvancesByWidthOrJumps : Obligations.PcAdvancesByWidthOrJumps := by
  unfold Obligations.PcAdvancesByWidthOrJumps
  intro s t h
  rcases step_next_cases h with ⟨hi, rfl⟩ | ⟨i, hi, he⟩
  · exact .inl ⟨hi, rfl⟩
  · rcases exec_pc he with hpc | ⟨hop, ha⟩
    · exact .inr (.inl ⟨i, hi, hpc⟩)
    · exact .inr (.inr ⟨i, t.pc, hi, hop, ha, rfl⟩)

theorem add_ofNat_eq_wrap (a : Word) (n : Nat) : a + BitVec.ofNat 32 n = wrap (a.toInt + n) := by
  simp [wrap, BitVec.ofInt_add]

/-- Settles O47: R8's bound on the capacity leaves room for the widest instruction below MAX, where `wrap` is exact. -/
theorem pcAdvanceNeverWraps : Obligations.PcAdvanceNeverWraps := by
  unfold Obligations.PcAdvanceNeverWraps
  intro s op hs hpc
  have hcap := hs.capacityLe
  have hwidth := operandCount_le op
  obtain ⟨hlow, hhigh⟩ := (inRange_iff s s.pc).mp hpc
  rw [advance_pc, add_ofNat_eq_wrap, toInt_wrap]
  simp only [minValue, maxValue, Config.maxCapacity, width_eq] at *
  omega

/-! The run state (R29, R170). -/

theorem haltCondition_instr {policy : Config.OorOperandPolicy} {s : State} {i : Instr} (hs : s.fetches = true)
    (hf : fetch policy s = .instr i) : haltCondition policy s = ownHalt i s := by
  obtain ⟨hr, hpc⟩ := (fetches_iff s).mp hs
  simp [haltCondition, hr, hpc, hf]

/-- A running machine whose step performs no instruction meets a halt condition. -/
theorem haltCondition_ne_none {policy : Config.OorOperandPolicy} {s : State} (hr : s.running = true)
    (h : s.fetches = false ∨ fetch policy s = .unknown ∨ fetch policy s = .abandoned) :
    haltCondition policy s ≠ none := by
  cases hpc : s.inRange s.pc
  · simp [haltCondition, hr, hpc]
  · rcases h with hs | hf | hf
    · simp [State.fetches, hr, hpc] at hs
    · simp [haltCondition, hr, hpc, hf]
    · simp [haltCondition, hr, hpc, hf]

/-- A meaning keeps the run state exactly when its own halt condition does not hold. -/
theorem exec_running_iff {i : Instr} {s t : State} (h : exec i s = .next t) :
    t.running = true ↔ s.running = true ∧ ownHalt i s = none := by
  cases i with
  | div r1 r2 =>
    by_cases h0 : s.operand r2 = 0
    · rw [exec_div_zero r1 h0] at h
      cases h
      simp [ownHalt, h0]
    · have hown : ownHalt (.div r1 r2) s = none := if_neg h0
      rw [exec_div_nonzero r1 h0] at h
      cases h
      simp [hown]
  | jeq r1 r2 addr =>
    rw [exec_jeq] at h
    cases h
    split <;> simp [ownHalt]
  | jne r1 r2 addr =>
    rw [exec_jne] at h
    cases h
    split <;> simp [ownHalt]
  | _ =>
    cases h
    simp [ownHalt]

/-- Settles O36: construction and LOAD_PROGRAM by their field lemmas; a step halts in place, where a running machine meets a halt
condition, or runs an instruction, whose own condition is then the step's. -/
theorem runStateClearedExactlyByHaltConditions : Obligations.RunStateClearedExactlyByHaltConditions := by
  unfold Obligations.RunStateClearedExactlyByHaltConditions
  refine ⟨fun _ => rfl, loadProgram_running, fun policy s t h => ?_⟩
  rcases stepUnder_cases policy s with ⟨hstep, hwhy⟩ | ⟨i, hs, hf, hstep⟩
  · rw [hstep] at h
    cases h
    simpa using fun hr => haltCondition_ne_none hr hwhy
  · rw [haltCondition_instr hs hf]
    exact exec_running_iff (hstep ▸ h)

/-! Construction (R34, R190). -/

theorem capacityAdmitted_iff (capacity : Int) :
    capacityAdmitted capacity = true ↔ 0 ≤ capacity ∧ capacity ≤ 2147483644 := by simp [capacityAdmitted]

theorem construct_of_not_admitted {capacity : Int} (h : ¬ capacityAdmitted capacity = true) : construct capacity = none :=
  if_neg h

/-- Every cell of a constructed machine reads 0. -/
theorem readMemory_constructed (capacity : Nat) (a : Word) : readMemory (State.constructed capacity) a = 0 := by
  have hread : (State.constructed capacity).memRead a = 0 := readCell_nil _
  simp [readMemory, hread]

/-- Settles O49: the table is `State.constructed` at an admitted capacity, whose SP is exact; any other capacity is refused. -/
theorem constructionGivesResetTable : Obligations.ConstructionGivesResetTable := by
  unfold Obligations.ConstructionGivesResetTable
  refine fun capacity => ⟨fun h => ?_, fun h => construct_of_not_admitted ?_⟩
  · have hnat : (capacity.toNat : Int) = capacity := Int.toNat_of_nonneg h.1
    have hle : capacity.toNat ≤ Config.maxCapacity := by simp only [Config.maxCapacity]; omega
    refine ⟨_, construct_of_admitted ((capacityAdmitted_iff capacity).mpr h), rfl, rfl, rfl, rfl, ?_, rfl, rfl, rfl, rfl, hnat,
      readMemory_constructed _, rfl⟩
    exact (constructed_sp_toInt hle).trans (by rw [hnat])
  · rw [capacityAdmitted_iff]
    omega

end Sys2Proof.Machine
end

section
/-! SUPPORT and PROOFS. The memory chapter (20_memory.md): what an instruction reads and writes of memory (R51 to R53, R63, R64), and the
operand read past its end (R54). -/

namespace Sys2Proof.Machine

/-! The state with another memory: every read but that of memory passes through, and every operation but `memWrite` commutes with the
change. -/

/-- The same machine with the memory contents `m`. -/
def State.withMem (s : State) (m : Memory) : State := { s with mem := m }

@[simp] theorem withMem_operand (s : State) (m : Memory) (r : Word) : (s.withMem m).operand r = s.operand r := by
  unfold State.operand; cases rc r <;> rfl

@[simp] theorem withMem_inRange (s : State) (m : Memory) (a : Word) : (s.withMem m).inRange a = s.inRange a := rfl

@[simp] theorem writeReg_withMem (s : State) (m : Memory) (r : Reg) (v : Word) :
    (s.withMem m).writeReg r v = (s.writeReg r v).withMem m := by cases r <;> rfl

@[simp] theorem setPc_withMem (s : State) (m : Memory) (a : Word) :
    (s.withMem m).setPc a = (s.setPc a).withMem m := rfl

@[simp] theorem advance_withMem (s : State) (m : Memory) (op : Opcode) :
    (s.withMem m).advance op = (s.advance op).withMem m := rfl

@[simp] theorem halt_withMem (s : State) (m : Memory) : (s.withMem m).halt = s.halt.withMem m := rfl

@[simp] theorem emit_withMem (s : State) (m : Memory) (e : Event) :
    (s.withMem m).emit e = (s.emit e).withMem m := rfl

@[simp] theorem updateFlags_withMem (s : State) (m : Memory) (v : Word) :
    (s.withMem m).updateFlags v = (s.updateFlags v).withMem m := rfl

@[simp] theorem writeResult_withMem (s : State) (m : Memory) (op : Opcode) (r1 v : Word) :
    (s.withMem m).writeResult op r1 v = (s.writeResult op r1 v).withMem m := by simp [State.writeResult]

theorem memWrite_withMem_inRange (s : State) (m : Memory) {a : Word} (v : Word) (h : s.inRange a = true) :
    (s.withMem m).memWrite a v = (s.memWrite a v).withMem (m.writeCell (cellIndex a) v) := by
  rw [memWrite_inRange s v h, memWrite_inRange (s.withMem m) v h]
  rfl

theorem memWrite_withMem_outOfRange (s : State) (m : Memory) {a : Word} (v : Word) (h : s.inRange a = false) :
    (s.withMem m).memWrite a v = (s.memWrite a v).withMem m := by
  rw [memWrite_outOfRange s v h, memWrite_outOfRange (s.withMem m) v h]

/-! No memory cell is read as data (R51, R63, R122). -/

/-- The bytes that writing the word `v` to cell `a` writes, with their values. -/
def cellBytes (a : Nat) (v : Word) (b : Nat) : Option Byte :=
  if b = cellByte a 3 then some (v.extractLsb' 24 8)
  else if b = cellByte a 2 then some (v.extractLsb' 16 8)
  else if b = cellByte a 1 then some (v.extractLsb' 8 8)
  else if b = cellByte a 0 then some (v.extractLsb' 0 8)
  else none

theorem read_writeCell_eq_cellBytes (m : Memory) (a : Nat) (v : Word) (b : Nat) :
    (m.writeCell a v).read b = (cellBytes a v b).getD (m.read b) := by
  rw [read_writeCell, cellBytes]
  split_ifs <;> rfl

/-- An instruction that is no in-range STORE does the same whatever memory holds, and leaves memory as it found it. -/
theorem exec_withMem {i : Instr} {s t : State} (hi : ∀ r addr, i = .store r addr → s.inRange addr = false)
    (h : exec i s = .next t) (m : Memory) : exec i (s.withMem m) = .next (t.withMem m) := by
  cases i with
  | store r addr =>
    cases h
    simp [memWrite_withMem_outOfRange s m _ (hi r addr rfl)]
  | div r1 r2 =>
    by_cases h0 : s.operand r2 = 0
    · rw [exec_div_zero r1 h0] at h
      cases h
      simp [exec_div_zero, h0]
    · rw [exec_div_nonzero r1 h0] at h
      cases h
      rw [exec_div_nonzero r1 (by simpa using h0)]
      simp
  | jeq r1 r2 addr =>
    rw [exec_jeq] at h
    cases h
    by_cases heq : s.operand r1 = s.operand r2 <;> simp [exec_jeq, heq]
  | jne r1 r2 addr =>
    rw [exec_jne] at h
    cases h
    by_cases heq : s.operand r1 = s.operand r2 <;> simp [exec_jne, heq]
  | _ =>
    cases h
    simp

/-- An in-range STORE does the same whatever memory holds, but for memory, where it writes one and the same cell. -/
theorem exec_store_withMem (r : Word) {addr : Word} {s : State} (h : s.inRange addr = true) (m : Memory) :
    exec (.store r addr) (s.withMem m) =
      .next (((s.memWrite addr (s.operand r)).advance .store).withMem (m.writeCell (cellIndex addr) (s.operand r))) := by
  simp [memWrite_withMem_inRange s m _ h]

/-- Settles O43: an in-range STORE writes the four bytes of its cell, chosen from its operands, and every other instruction writes
nothing; neither looks at memory. -/
theorem noInstructionReadsMemoryAsData : Obligations.NoInstructionReadsMemoryAsData := by
  unfold Obligations.NoInstructionReadsMemoryAsData
  intro i s
  by_cases hi : ∃ r addr, i = .store r addr ∧ s.inRange addr = true
  · obtain ⟨r, addr, rfl, ha⟩ := hi
    exact ⟨_, cellBytes (cellIndex addr) (s.operand r), exec_store r addr s, fun m =>
      ⟨_, exec_store_withMem r ha m, read_writeCell_eq_cellBytes m (cellIndex addr) (s.operand r)⟩⟩
  · obtain ⟨t, ht⟩ := exec_next i s
    have hout (r addr : Word) (hstore : i = .store r addr) : s.inRange addr = false :=
      Bool.eq_false_iff.mpr fun ha => hi ⟨r, addr, hstore, ha⟩
    exact ⟨t, fun _ => none, ht, fun m => ⟨m, exec_withMem hout ht m, fun _ => rfl⟩⟩

/-! What a write changes (R51 to R53). -/

theorem memWrite_memRead_self {s : State} {a : Word} (v : Word) (h : s.inRange a = true) : (s.memWrite a v).memRead a = v := by
  simp [State.memRead, h]

theorem memWrite_memRead_ne (s : State) {a b : Word} (v : Word) (h : b ≠ a) : (s.memWrite a v).memRead b = s.memRead b := by
  simp only [State.memRead, memWrite_mem]
  split
  · exact readCell_writeCell_ne s.mem v (cellIndex_ne h)
  · rfl

theorem memWrite_sameMemoryButCell (s : State) (a v : Word) : SameMemoryButCell (cellIndex a) s (s.memWrite a v) := by
  refine ⟨memWrite_capacity s a v, fun b hb => ?_⟩
  rw [memWrite_mem]
  split
  · exact read_writeCell_outside s.mem v hb
  · rfl

/-- Settles O48: the read laws of `memWrite`. -/
theorem cellReadsAsLastWritten : Obligations.CellReadsAsLastWritten := by
  unfold Obligations.CellReadsAsLastWritten
  exact fun s a b v => ⟨fun ha => ⟨memWrite_memRead_self v ha, memWrite_memRead_ne s v⟩, memWrite_outOfRange s v⟩

/-- Settles O13: STORE's memory is that of its `memWrite`, and the four bytes in a row are the cell (log entry 1). -/
theorem storeLeavesEveryOtherByte : Obligations.StoreLeavesEveryOtherByte := by
  unfold Obligations.StoreLeavesEveryOtherByte
  refine fun r addr s => ⟨_, exec_store r addr s, fun ha => ⟨?_, ?_⟩, fun ha => ?_⟩
  · exact memWrite_sameMemoryButCell s addr (s.operand r)
  · exact memWrite_memRead_self (s.operand r) ha
  · rw [memWrite_outOfRange s (s.operand r) ha]
    exact ⟨rfl, fun _ => rfl⟩

/-- Settles O42: a halt in place leaves memory, and so does an instruction, unless it is an in-range STORE, which leaves every byte outside
its cell. -/
theorem onlyStoreChangesMemory : Obligations.OnlyStoreChangesMemory := by
  unfold Obligations.OnlyStoreChangesMemory
  intro s t h
  rcases step_next_cases h with ⟨-, rfl⟩ | ⟨i, hi, he⟩
  · exact ⟨rfl, fun _ hne => absurd rfl hne⟩
  · refine ⟨exec_capacity he, fun a hne => ?_⟩
    rcases exec_mem he with hm | ⟨r, addr, rfl, ha, hm⟩
    · exact absurd (by rw [hm]) hne
    · refine ⟨r, addr, hi, ha, ?_⟩
      by_contra hout
      refine hne ?_
      rw [hm]
      exact read_writeCell_outside s.mem _ (by omega)

/-! A write into the next opcode cell (R64). -/

/-- The opcode cell at pc decides which opcode the current instruction has, and whether there is one. -/
theorem currentInstr_opcode {s : State} (h : s.fetches = true) :
    (currentInstr s).map Instr.opcode = decodeOpcode (s.memRead s.pc) := by
  cases hop : decodeOpcode (s.memRead s.pc) with
  | none => simp [currentInstr, fetch_unknown operandPolicy hop]
  | some op => simp [currentInstr, h, operandPolicy, fetch_zero hop]

theorem exec_store_memRead {r addr : Word} {s t : State} (h : exec (.store r addr) s = .next t) (ha : s.inRange addr = true) :
    t.memRead addr = s.operand r := by
  cases h
  exact memWrite_memRead_self (s.operand r) ha

/-- Settles O33: after the STORE the machine still runs, at an in-range pc whose cell reads as the stored value. -/
theorem storeIsSeenByNextFetch : Obligations.StoreIsSeenByNextFetch := by
  unfold Obligations.StoreIsSeenByNextFetch
  intro s r addr hi hpc ha
  obtain ⟨hrun, -⟩ := currentInstr_running hi
  obtain ⟨t, ht⟩ := exec_next (.store r addr) s
  have htrun : t.running = true := (exec_running_iff ht).mpr ⟨hrun, rfl⟩
  have htpc : t.pc = addr := by
    cases ht
    simp [hpc]
  have hfetches : t.fetches = true := by
    rw [fetches_iff, htpc, inRange_congr (exec_capacity ht)]
    exact ⟨htrun, ha⟩
  refine ⟨t, (step_of_currentInstr hi).trans ht, ?_⟩
  rw [currentInstr_opcode hfetches, htpc, exec_store_memRead ht ha]
  rfl

/-! Operand cells past the end of memory (R54, R92). -/

theorem opRead_zero_outOfRange {s : State} {a : Word} (h : s.inRange a = false) : opRead .zero s a = some 0 := by
  simp [readMemory, h]

theorem opRead_halt_outOfRange {s : State} {a : Word} (h : s.inRange a = false) : opRead .halt s a = none := by
  simp [opRead, h]

/-- Settles O29: R50's range test splits the addresses into the two clauses. -/
theorem operandReadFollowsPolicy : Obligations.OperandReadFollowsPolicy := by
  unfold Obligations.OperandReadFollowsPolicy
  refine ⟨rfl, fun s a => ⟨fun h policy => ?_, fun h => ?_⟩⟩
  · exact opRead_inRange policy ((inRange_iff s a).mpr h)
  · have hout := (inRange_eq_false_iff s a).mpr h
    exact ⟨opRead_zero_outOfRange hout, opRead_halt_outOfRange hout⟩

/-- Under HALT one operand cell outside memory abandons the instruction. -/
theorem fetch_halt_abandoned {s : State} {op : Opcode} (hop : decodeOpcode (s.memRead s.pc) = some op)
    (h : ∃ k, 1 ≤ k ∧ k < op.width ∧ s.inRange (s.pc + BitVec.ofNat 32 k) = false) : fetch .halt s = .abandoned := by
  obtain ⟨k, hk, hkw, hout⟩ := h
  have hnone : fetchOperands .halt s (s.pc + 1) op.operandCount = none := by
    rw [width_eq] at hkw
    refine fetchOperands_halt_none ⟨k - 1, by omega, ?_⟩
    rwa [← add_ofNat_succ, Nat.sub_add_cancel hk]
  simp only [fetch, hop, hnone]

/-- The policy enters a step through the fetch alone. -/
theorem stepUnder_congr {p q : Config.OorOperandPolicy} {s : State} (h : fetch p s = fetch q s) :
    stepUnder p s = stepUnder q s := by
  simp only [stepUnder, h]

/-- Settles O30: an operand cell outside memory makes the fetch under HALT abandon the instruction; without one the two fetches are the
same, and without a fetch both steps halt in place. -/
theorem policyMattersOnlyPastTheEnd : Obligations.PolicyMattersOnlyPastTheEnd := by
  unfold Obligations.PolicyMattersOnlyPastTheEnd
  refine fun s => ⟨fun op hs hop hout => stepUnder_abandoned hs (fetch_halt_abandoned hop hout), ?_⟩
  rintro (hs | hin)
  · rw [stepUnder_not_fetches .halt hs, stepUnder_not_fetches .zero hs]
  · exact stepUnder_congr (fetch_policy hin)

end Sys2Proof.Machine
end

section
/-! SUPPORT and PROOFS. The encoding chapter (30_encoding.md): decoding and encoding are inverse (R71, R72, R74), the opcode cell decides the
length (R76), an unknown opcode halts (R78), and the step of an instruction whose cells lie in memory (R92). -/

namespace Sys2Proof

/-! Decoding and encoding (R71, R72, R74, R80). -/

theorem wellFormed_eq_true (i : Instr) : i.wellFormed = true := by cases i <;> rfl

theorem encode_append (i : Instr) (rest : List Word) : encode i ++ rest = i.opcode.code :: (i.operands ++ rest) := rfl

@[simp] theorem decode_encode_append (i : Instr) (rest : List Word) : decode (encode i ++ rest) = .ok (i, rest) := by
  rw [encode_append, decode_cons (decodeOpcode_code i.opcode) (by simp), List.take_left' (operands_length i),
    List.drop_left' (operands_length i), assemble_operands]

/-- What the decoder accepts is the encoding of its answer: no cell is dropped or changed. -/
theorem eq_encode_append_of_decode {cells : List Word} {i : Instr} {rest : List Word} (h : decode cells = .ok (i, rest)) :
    cells = encode i ++ rest := by
  obtain ⟨op, tail, rfl, hlen, rfl, rfl⟩ := decode_ok_cases h
  rw [encode_append, assemble_opcode, operands_assemble (List.length_take_of_le hlen), List.take_append_drop]

/-- Settles O3: `decode_encode_append` and `eq_encode_append_of_decode` are the two directions, and every instruction is well-formed. -/
theorem decodeInvertsEncode : Obligations.DecodeInvertsEncode := by
  unfold Obligations.DecodeInvertsEncode
  refine fun cells i rest => ⟨fun h => eq_encode_append_of_decode h.1, ?_⟩
  rintro rfl
  exact ⟨decode_encode_append i rest, wellFormed_eq_true i⟩

/-- No instruction's cells begin another's: the decoder reads the first instruction back from the run. -/
theorem encode_append_inj {i j : Instr} {xs ys : List Word} (h : encode i ++ xs = encode j ++ ys) : i = j ∧ xs = ys := by
  have hdecode := decode_encode_append i xs
  rw [h, decode_encode_append] at hdecode
  cases hdecode
  exact ⟨rfl, rfl⟩

/-! Programs (R70). -/

@[simp] theorem encodeProgram_nil : encodeProgram [] = [] := rfl

@[simp] theorem encodeProgram_cons (i : Instr) (p : List Instr) : encodeProgram (i :: p) = encode i ++ encodeProgram p :=
  List.flatMap_cons

/-- Settles O4, by induction on the first program: an instruction has at least one cell, so neither program can end before the other, and
`encode_append_inj` takes off one instruction of each. -/
theorem programCellsParseUniquely : Obligations.ProgramCellsParseUniquely := by
  unfold Obligations.ProgramCellsParseUniquely
  intro p
  induction p with
  | nil =>
    rintro (_ | ⟨j, q⟩) h
    · rfl
    · simp [encode_append] at h
  | cons i p ih =>
    rintro (_ | ⟨j, q⟩) h
    · simp [encode_append] at h
    · rw [encodeProgram_cons, encodeProgram_cons] at h
      obtain ⟨rfl, hrest⟩ := encode_append_inj h
      rw [ih q hrest]

/-! The length of an instruction (R76). -/

theorem decodeOpcode_of_decode {w : Word} {xs rest : List Word} {i : Instr} (h : decode (w :: xs) = .ok (i, rest)) :
    decodeOpcode w = some i.opcode := by
  obtain ⟨rfl, -⟩ := List.cons.inj (eq_encode_append_of_decode h)
  exact decodeOpcode_code i.opcode

theorem length_of_decode {cells rest : List Word} {i : Instr} (h : decode cells = .ok (i, rest)) :
    cells.length = i.opcode.width + rest.length := by
  rw [eq_encode_append_of_decode h, List.length_append, encode_length]

/-- A run that begins with an opcode decodes as soon as it is that opcode's width long. -/
theorem exists_decode_of_width_le {w : Word} {ys : List Word} {op : Opcode} (hop : decodeOpcode w = some op)
    (hlen : op.width ≤ (w :: ys).length) : ∃ j rest, decode (w :: ys) = .ok (j, rest) ∧ j.opcode = op :=
  ⟨_, _, decode_cons hop (Nat.le_of_succ_le_succ hlen), assemble_opcode op _⟩

/-- Settles O5: the second run begins with the same opcode, so it decodes, and `length_of_decode` measures both runs. -/
theorem opcodeCellAloneDecidesLength : Obligations.OpcodeCellAloneDecidesLength := by
  unfold Obligations.OpcodeCellAloneDecidesLength
  refine fun w xs ys xs' i h => ⟨length_of_decode h, fun hlen => ?_⟩
  obtain ⟨j, ys', hj, hop⟩ := exists_decode_of_width_le (decodeOpcode_of_decode h) hlen
  exact ⟨j, ys', hj, hop, hop ▸ length_of_decode hj⟩

/-! The opcode map (R74, R78). -/

theorem decode_unknown {w : Word} (rest : List Word) (h : decodeOpcode w = none) :
    decode (w :: rest) = .error (.unknownOpcode w) := by
  simp only [decode, h]

/-- Settles O2: each row's cells are the encoding of its instruction, and no cell outside 1..12 is an opcode. -/
theorem opcodeMapDecodesEveryRow : Obligations.OpcodeMapDecodesEveryRow := by
  unfold Obligations.OpcodeMapDecodesEveryRow
  intro x y t rest
  exact ⟨decode_encode_append (.load x y) rest, decode_encode_append (.store x y) rest, decode_encode_append (.add x y) rest,
    decode_encode_append (.sub x y) rest, decode_encode_append (.mul x y) rest, decode_encode_append (.div x y) rest,
    decode_encode_append (.jmp t) rest, decode_encode_append (.jeq x y t) rest, decode_encode_append (.jne x y t) rest,
    decode_encode_append (.cmp x y) rest, decode_encode_append (.print x) rest, decode_encode_append .halt rest,
    fun _ h => decode_unknown rest (decodeOpcode_outside h)⟩

/-- Settles O1: nine literal words, read by evaluating the decoder. -/
theorem specWordsDecodeToTheirInstructions : Obligations.SpecWordsDecodeToTheirInstructions := by
  unfold Obligations.SpecWordsDecodeToTheirInstructions
  decide

end Sys2Proof

namespace Sys2Proof.Machine

/-! The step of an instruction that lies in memory (R54, R71, R92). -/

/-- Operand cells that all lie in memory are fetched as they stand there, whatever the policy. -/
theorem fetchOperands_stored (policy : Config.OorOperandPolicy) {s : State} {a : Word} {cells : List Word}
    (h : ∀ k, k < cells.length →
      s.inRange (a + BitVec.ofNat 32 k) = true ∧ s.memRead (a + BitVec.ofNat 32 k) = cells.getD k 0) :
    fetchOperands policy s a cells.length = some cells := by
  induction cells generalizing a with
  | nil => rfl
  | cons v rest ih =>
    obtain ⟨hin, hread⟩ : s.inRange a = true ∧ s.memRead a = v := by simpa using h 0 (by simp)
    have hrest : fetchOperands policy s (a + 1) rest.length = some rest := by
      refine ih fun k hk => ?_
      rw [← add_ofNat_succ]
      exact h (k + 1) (Nat.succ_lt_succ hk)
    simp only [List.length_cons, fetchOperands, opRead_inRange policy hin, hread, hrest, Option.map_some]

theorem fetch_instr {policy : Config.OorOperandPolicy} {s : State} {i : Instr} (hop : s.memRead s.pc = i.opcode.code)
    (hoperands : fetchOperands policy s (s.pc + 1) i.opcode.operandCount = some i.operands) :
    fetch policy s = .instr i := by
  simp only [fetch, hop, decodeOpcode_code, hoperands, assemble_operands]

/-- Settles O26: cell 0 of the instruction is its opcode cell, in range at pc, and the cells after it are its operands. -/
theorem storedInstructionRunsUnderEitherPolicy : Obligations.StoredInstructionRunsUnderEitherPolicy := by
  unfold Obligations.StoredInstructionRunsUnderEitherPolicy
  intro policy s i hrun h
  obtain ⟨hin, hop⟩ : s.inRange s.pc = true ∧ s.memRead s.pc = i.opcode.code := by
    simpa [encode] using h 0 (Nat.succ_pos _)
  have hoperands : fetchOperands policy s (s.pc + 1) i.operands.length = some i.operands := by
    refine fetchOperands_stored policy fun k hk => ?_
    rw [← add_ofNat_succ]
    exact h (k + 1) (Nat.succ_lt_succ (operands_length i ▸ hk))
  rw [operands_length] at hoperands
  exact stepUnder_instr ((fetches_iff s).mpr ⟨hrun, hin⟩) (fetch_instr hop hoperands)

/-! Steps without an instruction (R78, R80). -/

/-- Settles O31: a halt in place is a next state, and so is what any instruction answers. -/
theorem everyStepAnswersNextState : Obligations.EveryStepAnswersNextState := by
  unfold Obligations.EveryStepAnswersNextState
  intro policy s
  rcases stepUnder_cases policy s with ⟨hstep, -⟩ | ⟨i, -, -, hstep⟩
  · exact ⟨s.halt, hstep⟩
  · obtain ⟨t, ht⟩ := exec_next i s
    exact ⟨t, hstep.trans ht⟩

/-- Settles O28: a cell outside 1..12 is no opcode, so the fetch finds none under either policy. -/
theorem unknownOpcodeOnlyHalts : Obligations.UnknownOpcodeOnlyHalts := by
  unfold Obligations.UnknownOpcodeOnlyHalts
  intro policy s hrun hin hcell
  exact stepUnder_unknown ((fetches_iff s).mpr ⟨hrun, hin⟩) (fetch_unknown policy (decodeOpcode_outside hcell))

end Sys2Proof.Machine
end

section
/-! SUPPORT and PROOFS. The cycle and the host (40_cycle_and_host.md): the event channel (R106), the step and its range check (R90 to R94),
LOAD_PROGRAM and the accessors (R100 to R104), RUN (R95, R96), and the states the host can reach (R107). -/

namespace Sys2Proof.Machine

/-! The state with other channel contents: every read passes through, `emit` appends to the other contents, and every other operation
commutes with the change. -/

/-- The same machine with the channel contents `es`. -/
def State.withEvents (s : State) (es : List Event) : State := { s with events := es }

@[simp] theorem withEvents_operand (s : State) (es : List Event) (r : Word) : (s.withEvents es).operand r = s.operand r := by
  unfold State.operand; cases rc r <;> rfl

@[simp] theorem writeReg_withEvents (s : State) (es : List Event) (r : Reg) (v : Word) :
    (s.withEvents es).writeReg r v = (s.writeReg r v).withEvents es := by cases r <;> rfl

@[simp] theorem memWrite_withEvents (s : State) (es : List Event) (a v : Word) :
    (s.withEvents es).memWrite a v = (s.memWrite a v).withEvents es := by
  cases h : s.inRange a
  · rw [memWrite_outOfRange s v h, memWrite_outOfRange (s.withEvents es) v h]
  · rw [memWrite_inRange s v h, memWrite_inRange (s.withEvents es) v h]; rfl

@[simp] theorem setPc_withEvents (s : State) (es : List Event) (a : Word) :
    (s.withEvents es).setPc a = (s.setPc a).withEvents es := rfl

@[simp] theorem advance_withEvents (s : State) (es : List Event) (op : Opcode) :
    (s.withEvents es).advance op = (s.advance op).withEvents es := rfl

@[simp] theorem halt_withEvents (s : State) (es : List Event) : (s.withEvents es).halt = s.halt.withEvents es := rfl

@[simp] theorem emit_withEvents (s : State) (es : List Event) (e : Event) :
    (s.withEvents es).emit e = (s.emit e).withEvents (es ++ [e]) := rfl

@[simp] theorem updateFlags_withEvents (s : State) (es : List Event) (v : Word) :
    (s.withEvents es).updateFlags v = (s.updateFlags v).withEvents es := rfl

@[simp] theorem writeResult_withEvents (s : State) (es : List Event) (op : Opcode) (r1 v : Word) :
    (s.withEvents es).writeResult op r1 v = (s.writeResult op r1 v).withEvents es := by simp [State.writeResult]

@[simp] theorem currentInstr_withEvents (s : State) (es : List Event) : currentInstr (s.withEvents es) = currentInstr s :=
  currentInstr_congr rfl rfl rfl rfl

/-! What an instruction and a step append to the channel (R106, R136, R160). -/

/-- The events an instruction appends to the channel at `s`. -/
def emitted (i : Instr) (s : State) : List Event :=
  match i with
  | .print r => [.print (s.operand r)]
  | .div _ r2 => if s.operand r2 = 0 then [.divByZero] else []
  | _ => []

theorem emitted_cases (i : Instr) (s : State) :
    emitted i s = [] ∨
    (∃ r, i = .print r ∧ emitted i s = [.print (s.operand r)]) ∨
    (∃ r1 r2, i = .div r1 r2 ∧ s.operand r2 = 0 ∧ emitted i s = [.divByZero]) := by
  cases i with
  | print r => exact .inr (.inl ⟨r, rfl, rfl⟩)
  | div r1 r2 =>
    by_cases h : s.operand r2 = 0
    · exact .inr (.inr ⟨r1, r2, rfl, h, if_pos h⟩)
    · exact .inl (if_neg h)
  | _ => exact .inl rfl

theorem emitted_length_le (i : Instr) (s : State) : (emitted i s).length ≤ 1 := by
  rcases emitted_cases i s with h | ⟨_, _, h⟩ | ⟨_, _, _, _, h⟩ <;> simp [h]

/-- An instruction does the same whatever the channel holds, and appends its events to that. -/
theorem exec_withEvents {i : Instr} {s t : State} (h : exec i s = .next t) (es : List Event) :
    exec i (s.withEvents es) = .next (t.withEvents (es ++ emitted i s)) := by
  cases i with
  | div r1 r2 =>
    by_cases h0 : s.operand r2 = 0
    · rw [exec_div_zero r1 h0] at h
      cases h
      simp [exec_div_zero, emitted, h0]
    · have hnew : emitted (.div r1 r2) s = [] := if_neg h0
      rw [exec_div_nonzero r1 h0] at h
      cases h
      rw [exec_div_nonzero r1 (by simpa using h0)]
      simp [hnew]
  | jeq r1 r2 addr =>
    rw [exec_jeq] at h
    cases h
    by_cases heq : s.operand r1 = s.operand r2 <;> simp [exec_jeq, emitted, heq]
  | jne r1 r2 addr =>
    rw [exec_jne] at h
    cases h
    by_cases heq : s.operand r1 = s.operand r2 <;> simp [exec_jne, emitted, heq]
  | _ =>
    cases h
    simp [emitted]

/-- `exec_withEvents` at the contents the channel has. -/
theorem exec_events {i : Instr} {s t : State} (h : exec i s = .next t) : t.events = s.events ++ emitted i s := by
  have hself : exec i s = .next (t.withEvents (s.events ++ emitted i s)) := exec_withEvents h s.events
  rw [h] at hself
  exact congrArg State.events (Host.Outcome.next.inj hself)

/-- Settles O40: a step that halts in place appends nothing, and one that performs an instruction appends that instruction's events; which
of the two it is does not depend on the channel. -/
theorem eventChannelIsAppendOnlyAndUnread : Obligations.EventChannelIsAppendOnlyAndUnread := by
  unfold Obligations.EventChannelIsAppendOnlyAndUnread
  intro s es
  have hsame : currentInstr (s.withEvents es) = currentInstr s := currentInstr_withEvents s es
  cases hi : currentInstr s with
  | none =>
    have hstep : step (s.withEvents es) = .next (s.halt.withEvents es) := step_of_currentInstr_none (hsame.trans hi)
    refine ⟨s.halt, [], step_of_currentInstr_none hi, by simp, by simp, ?_⟩
    rw [List.append_nil]
    exact hstep
  | some i =>
    obtain ⟨t, ht⟩ := exec_next i s
    exact ⟨t, emitted i s, (step_of_currentInstr hi).trans ht, exec_events ht, emitted_length_le i s,
      (step_of_currentInstr (hsame.trans hi)).trans (exec_withEvents ht es)⟩

/-- Settles O41: a halt in place leaves the channel, and `emitted_cases` says what an instruction appends. -/
theorem onlyPrintAndDivisionByZeroEmit : Obligations.OnlyPrintAndDivisionByZeroEmit := by
  unfold Obligations.OnlyPrintAndDivisionByZeroEmit
  intro s t h
  rcases step_next_cases h with ⟨-, rfl⟩ | ⟨i, hi, he⟩
  · exact .inl rfl
  · rw [exec_events he]
    rcases emitted_cases i s with hnew | ⟨r, rfl, hnew⟩ | ⟨r1, r2, rfl, h0, hnew⟩
    · exact .inl (by simp [hnew])
    · exact .inr (.inl ⟨r, hi, congrArg (s.events ++ ·) hnew⟩)
    · exact .inr (.inr ⟨r1, r2, hi, h0, congrArg (s.events ++ ·) hnew⟩)

/-! LOAD_PROGRAM (R100, R101, R193). -/

theorem programAdmitted_iff (program : List Int) :
    programAdmitted program = true ↔ ∀ v ∈ program, minValue ≤ v ∧ v ≤ maxValue := by
  simp [programAdmitted, fitsCell]

theorem loadProgramInts_of_admitted (s : State) {program : List Int} (h : ∀ v ∈ program, minValue ≤ v ∧ v ≤ maxValue) :
    loadProgramInts s program = some (loadProgram s (program.map wrap)) :=
  if_pos ((programAdmitted_iff program).mpr h)

theorem loadProgramInts_of_not_admitted (s : State) {program : List Int}
    (h : ¬ ∀ v ∈ program, minValue ≤ v ∧ v ≤ maxValue) : loadProgramInts s program = none :=
  if_neg (mt (programAdmitted_iff program).mp h)

/-- An integer of an admitted program is the signed value of the cell it is copied to (R12). -/
theorem toInt_getD_map_wrap {program : List Int} (h : ∀ v ∈ program, minValue ≤ v ∧ v ≤ maxValue) {a : Nat}
    (ha : a < program.length) : ((program.map wrap).getD a 0).toInt = program.getD a 0 := by
  simp [List.getD_eq_getElem?_getD, ha, toInt_wrap (h _ (List.getElem_mem ha))]

/-- Settles O51: the cells by `loadProgram_readCell`, the other fields by their lemmas. -/
theorem loadProgramCopiesPrefix : Obligations.LoadProgramCopiesPrefix := by
  unfold Obligations.LoadProgramCopiesPrefix
  refine fun s program => ⟨fun h => ⟨_, loadProgramInts_of_admitted s h, fun a ha => ?_, fun a ha => ?_, rfl, rfl,
    loadProgram_readReg s _, ⟨rfl, rfl⟩, rfl, rfl⟩, ?_⟩
  · rw [loadProgram_readCell, List.length_map, if_pos ha]
    exact toInt_getD_map_wrap h (by omega)
  · rw [loadProgram_readCell, List.length_map, if_neg (by omega)]
  · rintro ⟨v, hv, hout⟩
    refine loadProgramInts_of_not_admitted s fun h => ?_
    have := h v hv
    omega

/-- Below an admitted capacity (R8) a cell number is exact as an address. -/
theorem inRange_ofNat {s : State} {k : Nat} (hk : k < s.capacity) (hcap : s.capacity ≤ Config.maxCapacity) :
    s.inRange (BitVec.ofNat 32 k) = true ∧ cellIndex (BitVec.ofNat 32 k) = k := by
  simp only [Config.maxCapacity] at hcap
  have hnat : (BitVec.ofNat 32 k).toNat = k := by
    rw [BitVec.toNat_ofNat]
    omega
  refine ⟨?_, hnat⟩
  rw [inRange_iff, BitVec.toInt_eq_toNat_of_lt (by omega), hnat]
  omega

/-- Settles O52: LOAD_PROGRAM leaves the instruction's cells from address 0 up, in range, and pc at 0; O26 does the rest. -/
theorem loadedInstructionRunsFirst : Obligations.LoadedInstructionRunsFirst := by
  unfold Obligations.LoadedInstructionRunsFirst
  intro s i rest hlen hcap
  refine storedInstructionRunsUnderEitherPolicy operandPolicy _ i rfl fun k hk => ?_
  rw [← encode_length] at hk
  rw [loadProgram_pc, zero_add]
  obtain ⟨hin, hcell⟩ := inRange_ofNat (s := loadProgram s (encode i ++ rest)) (hk.trans_le hlen) hcap
  refine ⟨hin, ?_⟩
  rw [State.memRead, hcell, loadProgram_readCell, if_pos (by rw [List.length_append]; omega), List.getD_append _ _ _ _ hk]

/-! The states the host can reach (R107). -/

theorem construct_inv {capacity : Int} {s : State} (h : construct capacity = some s) : s.Inv := by
  by_cases hc : capacityAdmitted capacity = true
  · rw [construct_of_admitted hc] at h
    cases h
    refine constructed_inv ?_
    rw [capacityAdmitted_iff] at hc
    simp only [Config.maxCapacity]
    omega
  · rw [construct_of_not_admitted hc] at h
    cases h

theorem loadProgram_inv {s : State} (p : List Word) (h : s.Inv) : (loadProgram s p).Inv where
  memWf := loadProgram_wf p h.memWf
  memWithin := loadProgram_within p h.memWithin
  capacityLe := h.capacityLe

theorem loadProgramInts_inv {s t : State} {program : List Int} (hs : s.Inv) (h : loadProgramInts s program = some t) :
    t.Inv := by
  by_cases hp : ∀ v ∈ program, minValue ≤ v ∧ v ≤ maxValue
  · rw [loadProgramInts_of_admitted s hp] at h
    cases h
    exact loadProgram_inv _ hs
  · rw [loadProgramInts_of_not_admitted s hp] at h
    cases h

/-- Settles O59, by induction on how the state is reached: construction meets the invariant, LOAD_PROGRAM and every step keep it. -/
theorem reachableStatesMeetInvariant : Obligations.ReachableStatesMeetInvariant := by
  unfold Obligations.ReachableStatesMeetInvariant
  intro s hs
  induction hs with
  | construct h => exact construct_inv h
  | load _ h ih => exact loadProgramInts_inv ih h
  | step _ h ih => exact stepKeepsInvariant operandPolicy _ _ ih h

/-! The step (R90 to R94). -/

theorem step_halted {s : State} (h : s.running = false) : step s = .next s := by
  have hfetches : s.fetches = false := by simp [State.fetches, h]
  exact (stepUnder_not_fetches operandPolicy hfetches).trans (congrArg _ (halt_eq_self h))

/-- The range check of R91: an out-of-range pc performs nothing and clears the run state. -/
theorem step_pc_outOfRange {s : State} (h : s.pc.toInt < 0 ∨ (s.capacity : Int) ≤ s.pc.toInt) : step s = .next s.halt := by
  have hfetches : s.fetches = false := by simp [State.fetches, (inRange_eq_false_iff s s.pc).mpr h]
  exact stepUnder_not_fetches operandPolicy hfetches

/-- Settles O27: neither state fetches. -/
theorem stepWithoutFetchOnlyHalts : Obligations.StepWithoutFetchOnlyHalts := by
  unfold Obligations.StepWithoutFetchOnlyHalts
  exact fun s => ⟨step_halted, fun _ => step_pc_outOfRange⟩

theorem ownHalt_eq_none {i : Instr} {s : State} (hhalt : i ≠ .halt) (hdiv : ∀ r1 r2, i = .div r1 r2 → s.operand r2 ≠ 0) :
    ownHalt i s = none := by
  cases i with
  | div r1 r2 => exact if_neg (hdiv r1 r2 rfl)
  | halt => exact absurd rfl hhalt
  | _ => rfl

/-- Settles O32: the instruction completes, keeping the run state unless its own halt condition holds, and the range check comes with the
next step. -/
theorem outOfRangePcHaltsAtNextStep : Obligations.OutOfRangePcHaltsAtNextStep := by
  unfold Obligations.OutOfRangePcHaltsAtNextStep
  intro s i hi
  obtain ⟨hrun, -⟩ := currentInstr_running hi
  obtain ⟨t, ht⟩ := exec_next i s
  refine ⟨t, (step_of_currentInstr hi).trans ht, fun hhalt hdiv => ?_, step_pc_outOfRange⟩
  exact (exec_running_iff ht).mpr ⟨hrun, ownHalt_eq_none hhalt hdiv⟩

/-- The cells a decoder is given after the opcode cell are the ones the operand fetch reads (R54, R92). -/
theorem fetchOperands_cellsAtPc (s : State) {n : Nat} (h : n ≤ 3) :
    fetchOperands .zero s (s.pc + 1) n = some (s.cellsAtPc.tail.take n) := by
  have hcells : s.cellsAtPc.tail = (List.range 3).map (fun k => readMemory s (s.pc + 1 + BitVec.ofNat 32 k)) := by
    simp [State.cellsAtPc, List.range_succ, BitVec.add_assoc]
  rw [fetchOperands_zero, hcells, ← List.map_take, List.take_range, Nat.min_eq_left h]

/-- Settles O25: the cells at pc begin with the instruction's, so the fetch finds its opcode cell and its operand cells. -/
theorem stepRunsDecodedInstruction : Obligations.StepRunsDecodedInstruction := by
  unfold Obligations.StepRunsDecodedInstruction
  intro s i rest hrun hin hdecode _
  obtain ⟨hop, htail⟩ : s.memRead s.pc = i.opcode.code ∧ s.cellsAtPc.tail = i.operands ++ rest :=
    List.cons.inj (eq_encode_append_of_decode hdecode)
  refine stepUnder_instr ((fetches_iff s).mpr ⟨hrun, hin⟩) (fetch_instr hop ?_)
  rw [operandPolicy, fetchOperands_cellsAtPc s (operandCount_le _), htail, List.take_left' (operands_length i)]

/-! The accessors (R103, R104). -/

theorem readMemory_inRange {s : State} {a : Word} (h : s.inRange a = true) : readMemory s a = s.memRead a := if_pos h

theorem readMemory_outOfRange {s : State} {a : Word} (h : s.inRange a = false) : readMemory s a = 0 := by
  simp [readMemory, h]

/-- Settles O53: R50's range test splits the addresses; every other accessor is a field. -/
theorem accessorsReadTheState : Obligations.AccessorsReadTheState := by
  unfold Obligations.AccessorsReadTheState
  exact fun s a => ⟨rfl, rfl, rfl, rfl, rfl, rfl, fun h => readMemory_inRange ((inRange_iff s a).mpr h),
    fun h => readMemory_outOfRange ((inRange_eq_false_iff s a).mpr h), rfl, rfl, rfl, rfl⟩

/-! RUN (R95, R96). -/

theorem step_next (s : State) : ∃ t, step s = .next t := everyStepAnswersNextState operandPolicy s

theorem runFuel_zero_running {s : State} (h : s.running = true) : runFuel 0 s = none := if_pos h

/-- RUN goes on from the state a step answers, whether the machine runs or not: a halted machine's step answers itself. -/
theorem runFuel_succ_of_step {s t : State} (h : step s = .next t) (n : Nat) : runFuel (n + 1) s = runFuel n t := by
  cases hr : s.running with
  | true => exact runFuel_succ hr h n
  | false =>
    rw [step_halted hr] at h
    cases h
    rw [runFuel_halted hr, runFuel_halted hr]

theorem core_run_succ {s t : State} (h : step s = .next t) (n : Nat) :
    Host.Core.run Sys2Proof.core (n + 1) s = Host.Core.run Sys2Proof.core n t := by
  have hcore : Sys2Proof.core.step s = .next t := h
  simp only [Host.Core.run, hcore]

/-- Settles O54, by induction on the number of steps: both sides go on from the state the first step answers. -/
theorem runIsRepeatedStepping : Obligations.RunIsRepeatedStepping := by
  unfold Obligations.RunIsRepeatedStepping
  intro n
  induction n with
  | zero => exact fun s => ⟨s, rfl, fun h => runFuel_halted h 0, runFuel_zero_running⟩
  | succ n ih =>
    intro s
    obtain ⟨t, ht⟩ := step_next s
    rw [core_run_succ ht, runFuel_succ_of_step ht]
    exact ih t

theorem runFuel_some_halted {n : Nat} {s t : State} (h : runFuel n s = some t) : t.running = false := by
  obtain ⟨u, -, hhalted, hrunning⟩ := runIsRepeatedStepping n s
  cases hu : u.running with
  | true => simp [hrunning hu] at h
  | false =>
    rw [hhalted hu] at h
    cases h
    exact hu

/-- More steps do not change what RUN has returned. -/
theorem runFuel_add {n : Nat} {s t : State} (h : runFuel n s = some t) (k : Nat) : runFuel (n + k) s = some t := by
  induction n generalizing s with
  | zero =>
    cases hr : s.running with
    | true => simp [runFuel_zero_running hr] at h
    | false =>
      rw [runFuel_halted hr] at h ⊢
      exact h
  | succ n ih =>
    obtain ⟨u, hu⟩ := step_next s
    rw [runFuel_succ_of_step hu] at h
    rw [Nat.add_right_comm, runFuel_succ_of_step hu]
    exact ih h

theorem runReturns_unique {s t u : State} (ht : RunReturns s t) (hu : RunReturns s u) : u = t := by
  obtain ⟨n, hn⟩ := ht
  obtain ⟨m, hm⟩ := hu
  have hsum := runFuel_add hm n
  rw [Nat.add_comm, runFuel_add hn m] at hsum
  exact (Option.some.inj hsum).symm

/-- Settles O55: a halted machine returns itself at once, and RUN's answer is unique. -/
theorem runReturnsOneHaltedState : Obligations.RunReturnsOneHaltedState := by
  unfold Obligations.RunReturnsOneHaltedState
  intro s t h
  obtain ⟨n, hn⟩ := h
  exact ⟨runFuel_some_halted hn, fun u => runReturns_unique ⟨n, hn⟩, fun hs => runReturns_unique ⟨0, runFuel_halted hs 0⟩ ⟨n, hn⟩⟩

/-- Settles O56: the jump replaces pc by itself, so every step of RUN is at the state where it began, and that runs. -/
theorem jumpToItselfNeverReturns : Obligations.JumpToItselfNeverReturns := by
  unfold Obligations.JumpToItselfNeverReturns
  intro s hi
  obtain ⟨hrun, -⟩ := currentInstr_running hi
  have hstep : step s = .next s := step_of_currentInstr hi
  refine ⟨hstep, fun n => ?_⟩
  induction n with
  | zero => exact runFuel_zero_running hrun
  | succ n ih => exact (runFuel_succ_of_step hstep n).trans ih

end Sys2Proof.Machine
end

section
/-! SUPPORT and PROOFS. Data transfer (41_data_transfer.md): LOAD writes one register (R120), STORE one cell or nothing (R121). -/

namespace Sys2Proof.Machine

/-- Settles O11: LOAD's next state is a `writeReg`, whose frame is every other field, advanced by the width 3. -/
theorem loadWritesImmediate : Obligations.LoadWritesImmediate := by
  unfold Obligations.LoadWritesImmediate
  refine fun r imm s => ⟨rfl, _, exec_load r imm s, ?_, fun q hq => ?_, ?_, ?_, ?_, ?_, ?_⟩
  · rw [advance_readReg, readReg_writeReg_self]
  · rw [advance_readReg, readReg_writeReg_ne s imm hq]
  all_goals simp [SameFlags, SameMemory, SameEvents]

/-- The frame by cell number: the other cell need not be that of any address. -/
theorem memWrite_readCell_ne (s : State) {a : Word} {b : Nat} (v : Word) (h : b ≠ cellIndex a) :
    (s.memWrite a v).mem.readCell b = s.mem.readCell b := by
  rw [memWrite_mem]
  split
  · exact readCell_writeCell_ne s.mem v h
  · rfl

theorem memWrite_sameMemory_outOfRange {s : State} {a : Word} (v : Word) (h : s.inRange a = false) :
    SameMemory s (s.memWrite a v) := by
  rw [memWrite_outOfRange s v h]
  exact ⟨rfl, fun _ => rfl⟩

/-- Settles O12: STORE's next state is a `memWrite` advanced by the width 3; R50's range test decides whether that writes its one cell. -/
theorem storeWritesOneCellOrNothing : Obligations.StoreWritesOneCellOrNothing := by
  unfold Obligations.StoreWritesOneCellOrNothing
  refine fun r addr s => ⟨rfl, _, exec_store r addr s, fun ha => ⟨?_, fun b hb => ?_⟩, fun ha => ?_, fun q => ?_, ?_, ?_, ?_, ?_, ?_⟩
  · exact exec_store_memRead (exec_store r addr s) ((inRange_iff s addr).mpr ha)
  · exact memWrite_readCell_ne s (s.operand r) hb
  · exact memWrite_sameMemory_outOfRange (s.operand r) ((inRange_eq_false_iff s addr).mpr ha)
  · rw [advance_readReg, memWrite_readReg]
  all_goals simp [SameFlags, SameEvents]

end Sys2Proof.Machine
end

section
/-! SUPPORT and PROOFS. Arithmetic (42_arithmetic.md): the exact results as bit-vector operations (R130), DIV's rounding (R135), and what ADD,
SUB, MUL, DIV and CMP do to the machine (R131 to R134, R136, R137). -/

namespace Sys2Proof.Machine

/-! The exact results as bit-vector operations (R130, R135). -/

theorem differenceWord_eq_sub (a b : Word) : differenceWord a b = a - b := by
  simp [differenceWord, wrap, Int.sub_eq_add_neg, BitVec.ofInt_add, BitVec.ofInt_neg, BitVec.sub_eq_add_neg]

theorem quotientWord_eq_sdiv (a b : Word) : quotientWord a b = a.sdiv b := by
  apply BitVec.eq_of_toInt_eq
  rw [quotientWord, wrap, BitVec.toInt_ofInt, BitVec.toInt_sdiv]

/-- Settles O7: one lemma for each operation; a zero divisor needs no case of its own, both quotients being 0 there. -/
theorem exactArithmeticAgreesWithBitVectors : Obligations.ExactArithmeticAgreesWithBitVectors := by
  unfold Obligations.ExactArithmeticAgreesWithBitVectors
  exact fun a b => ⟨sumWord_eq_add a b, differenceWord_eq_sub a b, productWord_eq_mul a b, fun _ => quotientWord_eq_sdiv a b⟩

/-! What an instruction that writes an arithmetic result does (R131 to R134). -/

theorem writeResult_effect {s t : State} {op : Opcode} {r1 v : Word} (hwidth : op.width = 3)
    (ht : t = s.writeResult op r1 v) :
    t.readReg (rc r1) = v ∧ FlagsOf (t.readReg (rc r1)) t ∧ SameRegsBut (rc r1) s t ∧ t.pc = s.pc + 3 ∧
      t.running = s.running ∧ SameMemory s t ∧ SameEvents s t := by
  subst ht
  have hreg : (s.writeResult op r1 v).readReg (rc r1) = v := by simp
  refine ⟨hreg, ?_, fun q hq => by simp [hq], by simp [hwidth], ?_, ?_, ?_⟩
  · rw [hreg]
    exact flagsOf_of_eq (writeResult_z s op r1 v) (writeResult_c s op r1 v)
  all_goals simp [SameMemory, SameEvents]

/-- Settles O14: ADD writes its result, and `sumWord` is the wrapped exact sum. -/
theorem addWritesWrappedSum : Obligations.AddWritesWrappedSum := by
  unfold Obligations.AddWritesWrappedSum
  exact fun r1 r2 s => ⟨rfl, _, exec_add r1 r2 s, writeResult_effect rfl rfl⟩

/-- Settles O15: SUB writes its result, and `differenceWord` is the wrapped exact difference. -/
theorem subWritesWrappedDifference : Obligations.SubWritesWrappedDifference := by
  unfold Obligations.SubWritesWrappedDifference
  exact fun r1 r2 s => ⟨rfl, _, exec_sub r1 r2 s, writeResult_effect rfl rfl⟩

/-- Settles O16: MUL writes its result, and `productWord` is the wrapped exact product. -/
theorem mulWritesWrappedProduct : Obligations.MulWritesWrappedProduct := by
  unfold Obligations.MulWritesWrappedProduct
  exact fun r1 r2 s => ⟨rfl, _, exec_mul r1 r2 s, writeResult_effect rfl rfl⟩

/-- Settles O17, by R136's test of the divisor: on zero a halt, an event and the advance; else DIV writes its result like ADD. -/
theorem divDividesOrHalts : Obligations.DivDividesOrHalts := by
  unfold Obligations.DivDividesOrHalts
  refine fun r1 r2 s => ⟨rfl, ?_⟩
  by_cases h0 : s.readReg (rc r2) = 0
  · refine ⟨_, exec_div_zero r1 h0, fun hne => absurd h0 hne, fun _ => ⟨fun q => ?_, ⟨rfl, rfl⟩, rfl, rfl⟩, rfl, rfl, fun _ => rfl⟩
    rw [advance_readReg, emit_readReg, halt_readReg]
  · obtain ⟨hreg, hflags, hregs, hpc, hrun, hmem, hev⟩ :=
      writeResult_effect (s := s) (op := .div) (r1 := r1) (v := quotientWord (s.operand r1) (s.operand r2)) rfl rfl
    exact ⟨_, exec_div_nonzero r1 h0, fun _ => ⟨hreg, hflags, hregs, hrun, hev⟩, fun h => absurd h h0, hpc, hmem⟩

/-! CMP (R137). -/

theorem zeroFlag_differenceWord (a b : Word) : zeroFlag (differenceWord a b) = true ↔ a.toInt = b.toInt := by
  rw [zeroFlag_iff, differenceWord_eq_sub, sub_eq_zero, BitVec.toInt_inj]

/-- Settles O18: CMP's next state is an `updateFlags` advanced by the width 3; the difference wraps to 0 only for equal operands. -/
theorem cmpSetsFlagsOnly : Obligations.CmpSetsFlagsOnly := by
  unfold Obligations.CmpSetsFlagsOnly
  refine fun r1 r2 s => ⟨rfl, _, exec_cmp r1 r2 s, flagsOf_of_eq rfl rfl, zeroFlag_differenceWord _ _, fun q => ?_, rfl, rfl,
    ⟨rfl, fun _ => rfl⟩, rfl⟩
  rw [advance_readReg, updateFlags_readReg]

/-! DIV rounds toward zero (R135). -/

/-- The quotient of two words is exact but for MIN / -1, which is one above MAX. -/
theorem toInt_quotientWord {a b : Word} (h : a.toInt ≠ minValue ∨ b.toInt ≠ -1) :
    (quotientWord a b).toInt = a.toInt.tdiv b.toInt := by
  rw [quotientWord_eq_sdiv]
  exact BitVec.toInt_sdiv_of_ne_or_ne a b (h.imp (mt fun ha => ha ▸ rfl) (mt fun hb => hb ▸ rfl))

theorem quotientWord_min_neg_one {a b : Word} (ha : a.toInt = minValue) (hb : b.toInt = -1) :
    quotientWord a b = BitVec.intMin 32 := by
  rw [quotientWord, ha, hb]
  rfl

theorem natAbs_tmod_lt (a : Int) {b : Int} (h : b ≠ 0) : (a.tmod b).natAbs < b.natAbs := by
  rw [Int.natAbs_tmod]
  exact Nat.mod_lt _ (Int.natAbs_pos.mpr h)

theorem tmod_eq_zero_or_sign_eq (a b : Int) : a.tmod b = 0 ∨ (a.tmod b).sign = a.sign := by
  by_cases h : b ∣ a
  · exact .inl (Int.tmod_eq_zero_of_dvd h)
  · exact .inr (by rw [Int.sign_tmod, if_neg h])

/-- Settles O8: by O17 the destination holds the quotient. Where that is exact, the remainder is `tmod`; MIN / -1 gives MIN, and the flags
are MIN's. -/
theorem divisionRoundsTowardZero : Obligations.DivisionRoundsTowardZero := by
  unfold Obligations.DivisionRoundsTowardZero
  rintro r1 r2 s a b rfl rfl hb
  have h0 : s.readReg (rc r2) ≠ 0 := mt (fun h => by rw [h]; rfl) hb
  obtain ⟨-, t, ht, hdivides, -⟩ := divDividesOrHalts r1 r2 s
  obtain ⟨hreg, ⟨hz, hc⟩, -⟩ := hdivides h0
  change t.readReg (rc r1) = quotientWord (s.readReg (rc r1)) (s.readReg (rc r2)) at hreg
  refine ⟨t, ht, fun hexact => ?_, fun hmin hneg => ?_⟩
  · refine ⟨Int.tmod _ _, ?_, natAbs_tmod_lt _ hb, tmod_eq_zero_or_sign_eq _ _⟩
    rw [hreg, toInt_quotientWord hexact]
    exact (Int.tdiv_mul_add_tmod _ _).symm
  · rw [quotientWord_min_neg_one hmin hneg] at hreg
    rw [hreg] at hz hc ⊢
    exact ⟨rfl, hc.mpr (by decide), Bool.eq_false_iff.mpr (mt hz.mp (by decide))⟩

end Sys2Proof.Machine
end

section
/-! SUPPORT and PROOFS. Control (43_control.md): JMP, JEQ and JNE change pc and nothing else (R150 to R152), and an out-of-range pc is the
next step's halt (R91). -/

namespace Sys2Proof.Machine

/-! The frame of a jump, taken or not: both set pc. -/

/-- The range check of R91 stands last, so that this is everything the jumps' statements say after the value of pc. -/
theorem setPc_changes_only_pc {s t : State} {target : Word} (ht : t = s.setPc target) :
    SameRegs s t ∧ SameFlags s t ∧ t.running = s.running ∧ SameMemory s t ∧ SameEvents s t ∧
      (t.running = true → t.pc.toInt < 0 ∨ (t.capacity : Int) ≤ t.pc.toInt → step t = .next { t with running := false }) := by
  subst ht
  exact ⟨setPc_readReg s target, ⟨rfl, rfl⟩, rfl, ⟨rfl, fun _ => rfl⟩, rfl, fun _ => step_pc_outOfRange⟩

/-- Settles O19: JMP's next state is a `setPc`. -/
theorem jmpReplacesPc : Obligations.JmpReplacesPc := by
  unfold Obligations.JmpReplacesPc
  exact fun addr s => ⟨rfl, _, exec_jmp addr s, setPc_pc s addr, setPc_changes_only_pc rfl⟩

/-! The conditional jumps: both compare signed values and set pc, to the target or past their own four cells. -/

theorem operand_eq_iff (s : State) (r1 r2 : Word) :
    s.operand r1 = s.operand r2 ↔ (s.readReg (rc r1)).toInt = (s.readReg (rc r2)).toInt :=
  BitVec.toInt_inj.symm

theorem exec_jeq_eq_setPc (r1 r2 addr : Word) (s : State) :
    exec (.jeq r1 r2 addr) s =
      .next (s.setPc (if (s.readReg (rc r1)).toInt = (s.readReg (rc r2)).toInt then addr else s.pc + 4)) := by
  rw [exec_jeq, apply_ite s.setPc]
  exact congrArg _ (if_congr (operand_eq_iff s r1 r2) rfl rfl)

theorem exec_jne_eq_setPc (r1 r2 addr : Word) (s : State) :
    exec (.jne r1 r2 addr) s =
      .next (s.setPc (if (s.readReg (rc r1)).toInt = (s.readReg (rc r2)).toInt then s.pc + 4 else addr)) := by
  rw [exec_jne, apply_ite s.setPc]
  exact congrArg _ (if_congr (operand_eq_iff s r1 r2) rfl rfl)

/-- Settles O20: JEQ's next state is a `setPc`, to the target on equal values. -/
theorem jeqJumpsWhenEqual : Obligations.JeqJumpsWhenEqual := by
  unfold Obligations.JeqJumpsWhenEqual
  refine fun r1 r2 addr s => ⟨rfl, _, exec_jeq_eq_setPc r1 r2 addr s, fun heq => ?_, fun hne => ?_, setPc_changes_only_pc rfl⟩
  · rw [setPc_pc, if_pos heq]
  · rw [setPc_pc, if_neg hne]

/-- Settles O21: JNE's next state is a `setPc`, to the target on different values. -/
theorem jneJumpsWhenDifferent : Obligations.JneJumpsWhenDifferent := by
  unfold Obligations.JneJumpsWhenDifferent
  refine fun r1 r2 addr s => ⟨rfl, _, exec_jne_eq_setPc r1 r2 addr s, fun hne => ?_, fun heq => ?_, setPc_changes_only_pc rfl⟩
  · rw [setPc_pc, if_neg hne]
  · rw [setPc_pc, if_pos heq]

end Sys2Proof.Machine
end

section
/-! SUPPORT and PROOFS. System (44_system.md): PRINT emits one event (R160), HALT clears the run state (R161), and each advances past its
own cells. -/

namespace Sys2Proof.Machine

/-- Settles O22: PRINT's next state is an `emit` advanced by the width 2, and neither touches a register. -/
theorem printEmitsRegister : Obligations.PrintEmitsRegister := by
  unfold Obligations.PrintEmitsRegister
  refine fun r s => ⟨rfl, _, exec_print r s, rfl, ?_, fun q => ?_, ⟨rfl, rfl⟩, rfl, rfl, fun _ => rfl⟩
  · rw [advance_pc, emit_pc, width_print, BitVec.ofNat_eq_ofNat]
  · rw [advance_readReg, emit_readReg]

/-- Settles O23: HALT's next state is a `halt` advanced by the width 1; its run state is clear, so by R94 the next step keeps it. -/
theorem haltStopsPastItself : Obligations.HaltStopsPastItself := by
  unfold Obligations.HaltStopsPastItself
  intro s
  have hrunning : (s.halt.advance .halt).running = false := by rw [advance_running, halt_running]
  refine ⟨rfl, _, exec_halt s, hrunning, ?_, fun q => ?_, ⟨rfl, rfl⟩, ⟨rfl, fun _ => rfl⟩, rfl, step_halted hrunning⟩
  · rw [advance_pc, halt_pc, width_halt, BitVec.ofNat_eq_ofNat]
  · rw [advance_readReg, halt_readReg]

end Sys2Proof.Machine
end

section
/-! SUPPORT and PROOFS. Exceptions (60_exceptions.md): which halt condition a step meets (R173), what a halting step leaves (R170, R174), and
that a halted machine stays as it is (R181). -/

namespace Sys2Proof.Machine

/-! The halt conditions, one equation for each stage of the step. -/

theorem haltCondition_halted (policy : Config.OorOperandPolicy) {s : State} (h : s.running = false) :
    haltCondition policy s = none := if_pos h

theorem haltCondition_pcRange (policy : Config.OorOperandPolicy) {s : State} (hr : s.running = true)
    (hpc : s.inRange s.pc = false) : haltCondition policy s = some .pcRange := by simp [haltCondition, hr, hpc]

theorem haltCondition_unknown {policy : Config.OorOperandPolicy} {s : State} (hs : s.fetches = true)
    (hf : fetch policy s = .unknown) : haltCondition policy s = some .unknown := by
  obtain ⟨hr, hpc⟩ := (fetches_iff s).mp hs
  simp [haltCondition, hr, hpc, hf]

theorem haltCondition_abandoned {policy : Config.OorOperandPolicy} {s : State} (hs : s.fetches = true)
    (hf : fetch policy s = .abandoned) : haltCondition policy s = some .operandRange := by
  obtain ⟨hr, hpc⟩ := (fetches_iff s).mp hs
  simp [haltCondition, hr, hpc, hf]

theorem ownHalt_div_zero (r1 : Word) {r2 : Word} {s : State} (h : s.operand r2 = 0) :
    ownHalt (.div r1 r2) s = some .div0 := if_pos h

/-! The order of the tests (R173). -/

/-- Under ZERO the fetch finds the instruction the decoder reads from the cells at pc. -/
theorem fetch_zero_of_decode {s : State} {i : Instr} {rest : List Word} (h : decode s.cellsAtPc = .ok (i, rest)) :
    fetch .zero s = .instr i := by
  obtain ⟨hop, htail⟩ : s.memRead s.pc = i.opcode.code ∧ s.cellsAtPc.tail = i.operands ++ rest :=
    List.cons.inj (eq_encode_append_of_decode h)
  refine fetch_instr hop ?_
  rw [fetchOperands_cellsAtPc s (operandCount_le _), htail, List.take_left' (operands_length i)]

/-- HALT finds it too, where every operand cell lies in memory. -/
theorem fetch_of_decode {policy : Config.OorOperandPolicy} {s : State} {i : Instr} {rest : List Word}
    (h : decode s.cellsAtPc = .ok (i, rest))
    (hin : policy = .zero ∨ ∀ k, 1 ≤ k → k < i.opcode.width → s.inRange (s.pc + BitVec.ofNat 32 k) = true) :
    fetch policy s = .instr i := by
  have hzero := fetch_zero_of_decode h
  rcases hin with rfl | hin
  · exact hzero
  · rw [← hzero]
    refine fetch_policy fun op hop => ?_
    rw [fetch_opcode hzero] at hop
    cases hop
    exact hin

/-- Settles O34: each clause is the equation of one stage, and past the last of them the condition is the instruction's own. -/
theorem haltConditionsInOrder : Obligations.HaltConditionsInOrder := by
  unfold Obligations.HaltConditionsInOrder
  refine fun policy s => ⟨haltCondition_halted policy, haltCondition_pcRange policy, fun hs hcell => ?_, ?_, ?_⟩
  · exact haltCondition_unknown hs (fetch_unknown policy (decodeOpcode_outside hcell))
  · rintro op hs hop rfl hout
    exact haltCondition_abandoned hs (fetch_halt_abandoned hop hout)
  · intro i rest hs hdecode hin
    rw [haltCondition_instr hs (fetch_of_decode hdecode hin)]
    refine ⟨?_, ?_, fun hdiv hhalt => ownHalt_eq_none hhalt hdiv⟩
    · rintro ⟨r1, r2, rfl, h0⟩
      exact ownHalt_div_zero r1 h0
    · rintro rfl
      rfl

/-! What a halting step leaves (R170, R174). -/

/-- R170's pc column: how far past the opcode cell pc stands after the halt. -/
def HaltLabel.pcAdvance : HaltLabel → Word
  | .haltInstr => 1
  | .div0 => 3
  | .unknown => 0
  | .pcRange => 0
  | .operandRange => 0

/-- R170's events: what the halting step emits. -/
def HaltLabel.emits : HaltLabel → List Event
  | .haltInstr => []
  | .div0 => [.divByZero]
  | .unknown => []
  | .pcRange => []
  | .operandRange => []

/-- The state a halt with a label leaves: the run state, pc and the event channel apart, it is `s`. -/
def State.haltedWith (s : State) (label : HaltLabel) : State :=
  { s with running := false, pc := s.pc + label.pcAdvance, events := s.events ++ label.emits }

@[simp] theorem haltedWith_readReg (s : State) (label : HaltLabel) (q : Reg) :
    (s.haltedWith label).readReg q = s.readReg q := by cases q <;> rfl

/-- A halt in place is what the labels that move no pc and emit nothing leave. -/
theorem haltedWith_eq_halt (s : State) {label : HaltLabel} (hpc : label.pcAdvance = 0) (he : label.emits = []) :
    s.haltedWith label = s.halt := by
  simp [State.haltedWith, State.halt, hpc, he]

/-- Only HALT and a DIV by zero have a halt condition of their own, and each leaves what its label says. -/
theorem exec_of_ownHalt {i : Instr} {s : State} {label : HaltLabel} (h : ownHalt i s = some label) :
    exec i s = .next (s.haltedWith label) := by
  cases i with
  | halt =>
    cases h
    simp [State.haltedWith, State.advance, State.setPc, State.halt, HaltLabel.pcAdvance, HaltLabel.emits]
  | div r1 r2 =>
    obtain ⟨h0, rfl⟩ : s.operand r2 = 0 ∧ HaltLabel.div0 = label := by simpa [ownHalt] using h
    exact exec_div_zero r1 h0
  | _ => cases h

/-- A step that meets a halt condition leaves what the condition's label says: by the stages of the step, in their order. -/
theorem stepUnder_of_haltCondition {policy : Config.OorOperandPolicy} {s : State} {label : HaltLabel}
    (h : haltCondition policy s = some label) : stepUnder policy s = .next (s.haltedWith label) := by
  cases hr : s.running with
  | false => simp [haltCondition_halted policy hr] at h
  | true =>
    cases hpc : s.inRange s.pc with
    | false =>
      rw [haltCondition_pcRange policy hr hpc] at h
      cases h
      rw [haltedWith_eq_halt s rfl rfl]
      exact stepUnder_not_fetches policy (by simp [State.fetches, hpc])
    | true =>
      have hs : s.fetches = true := (fetches_iff s).mpr ⟨hr, hpc⟩
      cases hf : fetch policy s with
      | unknown =>
        rw [haltCondition_unknown hs hf] at h
        cases h
        rw [haltedWith_eq_halt s rfl rfl]
        exact stepUnder_unknown hs hf
      | abandoned =>
        rw [haltCondition_abandoned hs hf] at h
        cases h
        rw [haltedWith_eq_halt s rfl rfl]
        exact stepUnder_abandoned hs hf
      | instr i =>
        rw [haltCondition_instr hs hf] at h
        exact (stepUnder_instr hs hf).trans (exec_of_ownHalt h)

/-- Settles O35: the step leaves `haltedWith` of its label, whose pc and events are read off the label's row of R170. -/
theorem haltTableStateAfter : Obligations.HaltTableStateAfter := by
  unfold Obligations.HaltTableStateAfter
  intro policy s label h
  refine ⟨_, stepUnder_of_haltCondition h, rfl, haltedWith_readReg s label, ⟨rfl, rfl⟩, ⟨rfl, fun _ => rfl⟩, ?_, ?_, ?_⟩
  · rintro rfl
    exact ⟨rfl, List.append_nil _⟩
  · rintro rfl
    exact ⟨rfl, rfl⟩
  · rintro (rfl | rfl | rfl) <;> exact ⟨BitVec.add_zero _, List.append_nil _⟩

/-! The halted machine (R94, R181). -/

/-- Settles O37, by induction on the number of steps: a halted machine's step answers the state itself. -/
theorem haltedMachineStaysAsItIs : Obligations.HaltedMachineStaysAsItIs := by
  unfold Obligations.HaltedMachineStaysAsItIs
  intro n
  induction n with
  | zero => exact fun _ _ => rfl
  | succ n ih =>
    intro s h
    rw [core_run_succ (step_halted h)]
    exact ih s h

end Sys2Proof.Machine
end
